-- ==== Sys2Proof/Word.lean ====
section
/-! DEFINITION. The widths of the block's fields (00_scope.md R8) and its two named enumerations
(30_encoding.md R74, R81). -/

namespace Sys2Proof

/-- A message byte (00_scope.md R8). -/
abbrev Byte := BitVec 8

/-- A command word (30_encoding.md R70). -/
abbrev Word := BitVec 32

/-- A dit duration in milliseconds, unsigned, `DIT_BITS` = 28 (00_scope.md R7, R8). -/
abbrev Dit := BitVec 28

/-- A symbol duration in milliseconds, unsigned, `DUR_BITS` = 32 (00_scope.md R7, R8). -/
abbrev Duration := BitVec 32

/-- A symbol word (30_encoding.md R80). -/
abbrev SymWord := BitVec 41

/-- `KeyingMode` (30_encoding.md R74): classic on-off keying, or two frequencies with the carrier
always present. -/
inductive KeyingMode where
  | onOffKeyed
  | frequencyShiftKeyed
  deriving DecidableEq, Repr

/-- `MorseSymbol`, the kind of one keying symbol (30_encoding.md R81). The codes 5, 6 and 7, which
R81 says are never produced, have no constructor. -/
inductive MorseSymbol where
  | dot
  | dash
  | intraCharacterGap
  | interCharacterGap
  | wordGap
  deriving DecidableEq, Repr

end Sys2Proof
end

