-- ==== Sys2Proof/Machine/Keying.lean ====
section
/-! DEFINITION. Timed keying symbols and the function `Key` (42_keying.md), and the 41-bit symbol word
(30_encoding.md R80-R82). -/

namespace Sys2Proof.Machine

/-- A timed keying symbol (00_scope.md R13): the fields of the symbol word (30_encoding.md R80). -/
structure TimedSymbol where
  kind : MorseSymbol
  units : BitVec 3
  carrier : Bool
  tone : Bool
  last : Bool
  durMs : Duration
  deriving DecidableEq, Repr

/-- `MorseSymbol` in `kind` (30_encoding.md R81). -/
def kindCode : MorseSymbol → BitVec 3
  | .dot => 0
  | .dash => 1
  | .intraCharacterGap => 2
  | .interCharacterGap => 3
  | .wordGap => 4

/-- `Units(kind)`, in dit units (42_keying.md R160). -/
def unitsOf : MorseSymbol → BitVec 3
  | .dot => 1
  | .dash => 3
  | .intraCharacterGap => 1
  | .interCharacterGap => 3
  | .wordGap => 7

/-- An element is a Dot or a Dash; the other kinds are gaps (00_scope.md R13). -/
def isElement : MorseSymbol → Bool
  | .dot => true
  | .dash => true
  | .intraCharacterGap => false
  | .interCharacterGap => false
  | .wordGap => false

/-- The carrier bit (42_keying.md R166, R167). -/
def carrierOf (kind : MorseSymbol) : KeyingMode → Bool
  | .onOffKeyed => isElement kind
  | .frequencyShiftKeyed => true

/-- The tone bit: 1 is the high tone (42_keying.md R166, R167). -/
def toneOf (kind : MorseSymbol) : KeyingMode → Bool
  | .onOffKeyed => false
  | .frequencyShiftKeyed => decide (kind = .dash)

/-- `zext_32(units) * zext_32(dit)` (42_keying.md R162, R164). -/
def durationOf (kind : MorseSymbol) (dit : Dit) : Duration :=
  (unitsOf kind).setWidth 32 * dit.setWidth 32

/-- `Sym(kind, mode, dit, isLast)` (42_keying.md R164). -/
def timedSymbol (kind : MorseSymbol) (mode : KeyingMode) (dit : Dit) (isLast : Bool) : TimedSymbol where
  kind := kind
  units := unitsOf kind
  carrier := carrierOf kind mode
  tone := toneOf kind mode
  last := isLast
  durMs := durationOf kind dit

/-- `Key(K, mode, dit)` (42_keying.md R164): one timed symbol per kind, in order, `last` on the final
one. -/
def key (ks : List MorseSymbol) (mode : KeyingMode) (dit : Dit) : List TimedSymbol :=
  ks.mapIdx fun i kind => timedSymbol kind mode dit (decide (i + 1 = ks.length))

/-- The symbol word: `dur_ms` 40:9, `last` 8, `tone` 7, `carrier` 6, `units` 5:3, `kind` 2:0
(30_encoding.md R80). -/
def TimedSymbol.word (t : TimedSymbol) : SymWord :=
  t.durMs ++ BitVec.ofBool t.last ++ BitVec.ofBool t.tone ++ BitVec.ofBool t.carrier ++ t.units ++
    kindCode t.kind

end Sys2Proof.Machine
end

