-- ==== Sys2Proof/Machine/MorseTable.lean ====
section
/-! DEFINITION. The Morse table `ROM` and its lookup (40_morse_table.md). -/

namespace Sys2Proof.Machine

/-- One 10-bit table entry (40_morse_table.md R101). -/
abbrev RomEntry := BitVec 10

/-- `valid`, `entry[9]` (R101). -/
def entryValid (e : RomEntry) : Bool := e.getLsbD 9

/-- `n`, `entry[8:6]`, the number of elements (R101). -/
def entryCount (e : RomEntry) : Nat := (e.extractLsb' 6 3).toNat

/-- `pat`, `entry[5:0]` (R101). -/
def entryPattern (e : RomEntry) : BitVec 6 := e.extractLsb' 0 6

/-- The space (R103). -/
def spaceRow : List (Byte × RomEntry) := [(0x20, 0x200)]

/-- The letters A to M (R104). -/
def lettersAtoM : List (Byte × RomEntry) :=
  [(0x41, 0x282), (0x42, 0x301), (0x43, 0x305), (0x44, 0x2C1), (0x45, 0x240), (0x46, 0x304),
   (0x47, 0x2C3), (0x48, 0x300), (0x49, 0x280), (0x4A, 0x30E), (0x4B, 0x2C5), (0x4C, 0x302),
   (0x4D, 0x283)]

/-- The letters N to Z (R104). -/
def lettersNtoZ : List (Byte × RomEntry) :=
  [(0x4E, 0x281), (0x4F, 0x2C7), (0x50, 0x306), (0x51, 0x30B), (0x52, 0x2C2), (0x53, 0x2C0),
   (0x54, 0x241), (0x55, 0x2C4), (0x56, 0x308), (0x57, 0x2C6), (0x58, 0x309), (0x59, 0x30D),
   (0x5A, 0x303)]

/-- The digits (R105). -/
def digitRows : List (Byte × RomEntry) :=
  [(0x30, 0x35F), (0x31, 0x35E), (0x32, 0x35C), (0x33, 0x358), (0x34, 0x350), (0x35, 0x340),
   (0x36, 0x341), (0x37, 0x343), (0x38, 0x347), (0x39, 0x34F)]

/-- The punctuation (R106), in the order of the rule's table. -/
def punctuationRows : List (Byte × RomEntry) :=
  [(0x2E, 0x3AA), (0x2C, 0x3B3), (0x3A, 0x387), (0x3F, 0x38C), (0x27, 0x39E), (0x2D, 0x3A1),
   (0x2F, 0x349), (0x28, 0x34D), (0x29, 0x3AD), (0x22, 0x392), (0x3D, 0x351), (0x2B, 0x34A),
   (0x40, 0x396)]

/-- The supported bytes with their entries (R103-R106). -/
def romRows : List (Byte × RomEntry) :=
  spaceRow ++ lettersAtoM ++ lettersNtoZ ++ digitRows ++ punctuationRows

/-- `ROM(b)`: the 256-entry table (10_state.md R35); a byte that is not listed has entry 0x000 (R107). -/
def rom (b : Byte) : RomEntry := ((romRows.find? fun row => row.1 == b).map (·.2)).getD 0

/-- `fold(b)`: 'a'..'z' become 'A'..'Z' when `CASE_FOLD` is set (R102). -/
def fold (caseFold : Bool) (b : Byte) : Byte :=
  if caseFold && decide (0x61 ≤ b.toNat) && decide (b.toNat ≤ 0x7A) then b - 0x20 else b

/-- `Lookup(b)` (R102). -/
def lookup (caseFold : Bool) (b : Byte) : RomEntry := rom (fold caseFold b)

/-- `Supported(b)` (R102). -/
def supported (caseFold : Bool) (b : Byte) : Bool := entryValid (lookup caseFold b)

/-- `Lookup(b).n` (R102): 0 for the space and for an unsupported byte. -/
def elementCount (caseFold : Bool) (b : Byte) : Nat := entryCount (lookup caseFold b)

/-- `Pattern(b)`: element `j` is a Dash when `pat[j]` is 1, else a Dot; element 0 is sent first (R101,
R102). -/
def pattern (caseFold : Bool) (b : Byte) : List MorseSymbol :=
  (List.range (elementCount caseFold b)).map fun j =>
    if (entryPattern (lookup caseFold b)).getLsbD j then .dash else .dot

end Sys2Proof.Machine
end

