-- ==== Sys2Proof/Config.lean ====
section
/-! DEFINITION. The build-time parameters (00_scope.md R7, 10_state.md R38) and the free values: what
the spec leaves open is a constant with no body, of which nothing can be computed or proved. -/

namespace Sys2Proof.Config

/-- `MSG_MAX`: 256 for this hardware (00_scope.md R7). -/
def msgMax : Nat := 256

/-- `CASE_FOLD`: `false` for this hardware (00_scope.md R7). -/
def caseFold : Bool := false

/-- `SKIP_UNSUPPORTED`: OPEN in 00_scope.md R7 (92_eei_decisions.md D33), so it has no value here.
See assumption log 4. -/
opaque skipUnsupported : Bool

/-- `LAT_MAX - 1`: `LAT_MAX` is an OPEN natural number, at least 1 (00_scope.md R7, 92_eei_decisions.md
D25). See assumption log 3. -/
opaque latMaxLessOne : Nat

/-- The parameters the encoder and the clock edge read, as one argument, so that a claim can be stated
for each value of an open one (93_implementation_defined.md part 1). -/
structure Params where
  skipUnsupported : Bool
  caseFold : Bool
  latMax : Nat
  deriving DecidableEq, Repr

/-- The parameters of this hardware. -/
def params : Params where
  skipUnsupported := skipUnsupported
  caseFold := caseFold
  latMax := latMaxLessOne + 1

/-- FREE VALUE. Whether an enabled PRESENT or FINISH is taken at the edge numbered by the argument, or
the block stalls (43_commands.md R203). See assumption log 2. -/
opaque internalStepTaken : Nat → Bool

/-- FREE VALUE. Whether, at the transfer at the edge numbered by the argument, the next symbol follows
back to back (43_commands.md R200). See assumption log 2. -/
opaque nextSymbolFollows : Nat → Bool

/-- FREE VALUE. What `sym_word` shows while `sym_valid` is 0 (70_reset_and_hazards.md R260). See
assumption log 6. -/
opaque idleSymWord : Nat → SymWord

/-- FREE VALUE. The content of a message byte that was never written since reset (10_state.md R37).
START refuses to read one; only a RUN that no START began could. See assumption log 5. -/
opaque unwrittenByte : Nat → Byte

end Sys2Proof.Config
end

