-- ==== Sys2Proof/Syntax.lean ====
section
/-! DEFINITION. The seven commands (30_encoding.md R71), one constructor per row of
spec/opcode_table.json. Each operand has its field's exact width (30_encoding.md R72, R73), so a term
cannot hold an operand that does not fit. -/

namespace Sys2Proof

inductive Instr where
  /-- NOP, OP 0x0 (43_commands.md R190). -/
  | nop
  /-- WRMSG index, byte, OP 0x1 (43_commands.md R184). -/
  | wrmsg (index : BitVec 8) (byte : Byte)
  /-- SETLEN len, OP 0x2 (43_commands.md R185). -/
  | setlen (len : BitVec 9)
  /-- SETDITCW dit, OP 0x3 (43_commands.md R186). -/
  | setditcw (dit : Dit)
  /-- SETDITQRSS dit, OP 0x4 (43_commands.md R187). -/
  | setditqrss (dit : Dit)
  /-- START mode, OP 0x5 (43_commands.md R188). -/
  | start (mode : KeyingMode)
  /-- CLRERR, OP 0x6 (43_commands.md R189). -/
  | clrerr
  deriving DecidableEq, Repr

end Sys2Proof
end

