-- ==== Sys2Proof/WellFormed.lean ====
section
/-! DEFINITION. What an assembler statement and a command must satisfy (30_encoding.md R84, R85). A
statement's operands are numbers of any size, so it can be ill-formed; a command's operands have their
field's width (Syntax.lean), so every `Instr` is well-formed, which `Laws.PerInstr` proves from the
same checks. -/

namespace Sys2Proof.Asm

/-- One assembler statement: the seven commands and the pseudo-instructions (30_encoding.md R84, R85),
with operands as the programmer wrote them. -/
inductive Stmt where
  | nop
  | clrerr
  | wrmsg (index byte : Nat)
  | setlen (len : Nat)
  | setditcw (ms : Nat)
  | setditqrss (ms : Nat)
  | start (mode : Nat)
  | loadmsg (text : List Byte)
  | sendcw
  | sendqrss
  | waitidle
  deriving DecidableEq, Repr

/-- "An assembler refuses ... an operand that does not fit its field: index > 255, len > 511,
ms > 268,435,455, mode not 0 or 1", and LOADMSG of more than `MSG_MAX` bytes (30_encoding.md R84,
R85); `byte` is an 8-bit field (R73). -/
def Stmt.wellFormed : Stmt → Bool
  | .nop => true
  | .clrerr => true
  | .wrmsg index byte => decide (index ≤ 255) && decide (byte ≤ 255)
  | .setlen len => decide (len ≤ 511)
  | .setditcw ms => decide (ms ≤ 268435455)
  | .setditqrss ms => decide (ms ≤ 268435455)
  | .start mode => decide (mode ≤ 1)
  | .loadmsg text => decide (text.length ≤ Config.msgMax)
  | .sendcw => true
  | .sendqrss => true
  | .waitidle => true

end Sys2Proof.Asm

namespace Sys2Proof

/-- The number of a keying mode in an assembler operand (30_encoding.md R84). -/
def KeyingMode.toNat : KeyingMode → Nat
  | .onOffKeyed => 0
  | .frequencyShiftKeyed => 1

/-- The statement that assembles to one command. -/
def Instr.stmt : Instr → Asm.Stmt
  | .nop => .nop
  | .wrmsg index byte => .wrmsg index.toNat byte.toNat
  | .setlen len => .setlen len.toNat
  | .setditcw dit => .setditcw dit.toNat
  | .setditqrss dit => .setditqrss dit.toNat
  | .start mode => .start mode.toNat
  | .clrerr => .clrerr

/-- A command is well-formed when every operand fits its field. -/
def Instr.wellFormed (i : Instr) : Bool := i.stmt.wellFormed

end Sys2Proof
end

