-- ==== Sys2Proof/Decode.lean ====
section
/-! DEFINITION. The decoder of a command word, total and rejecting by name (30_encoding.md R70-R75),
the encoder written from the same tables, and the match and mask rows (R76). -/

namespace Sys2Proof

/-- Why a command word is illegal (30_encoding.md R75). -/
inductive DecodeError where
  /-- R75 (a): `OP` is 0x7-0xF. -/
  | reservedOpcode (op : BitVec 4)
  /-- R75 (b): `OP` is 0x0-0x6 and a must-be-zero bit is 1. -/
  | reservedBits (op : BitVec 4)
  deriving DecidableEq, Repr

/-- `v[hi:lo]` of a command word, as `lo` and a width (00_scope.md R9). -/
def field (w : Word) (lo width : Nat) : BitVec width := w.extractLsb' lo width

/-- `OP`, `cmd_word[31:28]` (30_encoding.md R70). -/
def opField (w : Word) : BitVec 4 := field w 28 4

/-- The keying mode of F-START's bit 0 (30_encoding.md R74). -/
def modeOfBit (b : BitVec 1) : KeyingMode :=
  if b = 0 then .onOffKeyed else .frequencyShiftKeyed

/-- `KeyingMode` in one bit (30_encoding.md R74). -/
def KeyingMode.bit : KeyingMode → BitVec 1
  | .onOffKeyed => 0
  | .frequencyShiftKeyed => 1

/-- `i`, if the must-be-zero field `rz` is zero (30_encoding.md R75 (b)). -/
def requireZero {n : Nat} (rz : BitVec n) (op : BitVec 4) (i : Instr) : Except DecodeError Instr :=
  if rz = 0 then .ok i else .error (.reservedBits op)

/-- The decoder: `OP` selects the row (30_encoding.md R71) and the format (R72) says which bits are
operands and which must be zero. -/
def decode (w : Word) : Except DecodeError Instr :=
  let op := opField w
  if op = 0x0 then requireZero (field w 0 28) op .nop
  else if op = 0x1 then requireZero (field w 16 12) op (.wrmsg (field w 8 8) (field w 0 8))
  else if op = 0x2 then requireZero (field w 9 19) op (.setlen (field w 0 9))
  else if op = 0x3 then .ok (.setditcw (field w 0 28))
  else if op = 0x4 then .ok (.setditqrss (field w 0 28))
  else if op = 0x5 then requireZero (field w 1 27) op (.start (modeOfBit (field w 0 1)))
  else if op = 0x6 then requireZero (field w 0 28) op .clrerr
  else .error (.reservedOpcode op)

/-- The encoder (30_encoding.md R71, R72): opcode, must-be-zero bits, operands, from bit 31 down. -/
def encode : Instr → Word
  | .nop => 0x0#4 ++ 0#28
  | .wrmsg index byte => 0x1#4 ++ 0#12 ++ index ++ byte
  | .setlen len => 0x2#4 ++ 0#19 ++ len
  | .setditcw dit => 0x3#4 ++ dit
  | .setditqrss dit => 0x4#4 ++ dit
  | .start mode => 0x5#4 ++ 0#27 ++ mode.bit
  | .clrerr => 0x6#4 ++ 0#28

/-- The opcode of a command (30_encoding.md R71). -/
def Instr.opcode : Instr → BitVec 4
  | .nop => 0x0
  | .wrmsg _ _ => 0x1
  | .setlen _ => 0x2
  | .setditcw _ => 0x3
  | .setditqrss _ => 0x4
  | .start _ => 0x5
  | .clrerr => 0x6

/-- One row of the match and mask table (30_encoding.md R76): the row's opcode, match and mask. -/
structure OpcodeRow where
  opcode : BitVec 4
  matchWord : Word
  mask : Word
  deriving DecidableEq, Repr

/-- The match and mask table (30_encoding.md R76). -/
def opcodeRows : List OpcodeRow :=
  [⟨0x0, 0x00000000, 0xFFFFFFFF⟩, ⟨0x1, 0x10000000, 0xFFFF0000⟩, ⟨0x2, 0x20000000, 0xFFFFFE00⟩,
   ⟨0x3, 0x30000000, 0xF0000000⟩, ⟨0x4, 0x40000000, 0xF0000000⟩, ⟨0x5, 0x50000000, 0xFFFFFFFE⟩,
   ⟨0x6, 0x60000000, 0xFFFFFFFF⟩]

/-- "A word `w` selects a row when `(w & mask) = match`" (30_encoding.md R76). -/
def OpcodeRow.selects (r : OpcodeRow) (w : Word) : Bool := w &&& r.mask == r.matchWord

/-- The command word whose table bits are the low `nbits` bits of `w`, every other bit 0. A command is
one 32-bit word and the table numbers its bits as the word does (30_encoding.md R70). -/
def tableWord (nbits w : Nat) : Word := BitVec.ofNat 32 (w % 2 ^ nbits)

/-- What the decoder reads from a row's word, for the host. -/
def decodeTableWord (nbits w : Nat) : Option Instr := (decode (tableWord nbits w)).toOption

end Sys2Proof
end

