-- ==== Sys2Proof/Machine/State.lean ====
section
/-! DEFINITION. The machine's state as plain data (10_state.md), its reset value (R37), and how a step
can stop. -/

namespace Sys2Proof.Machine

/-- `PHASE` (10_state.md R26). -/
inductive Phase where
  | idle
  | run
  deriving DecidableEq, Repr

/-- `ENC_ERR` (10_state.md R32). Code 3, "never written", has no constructor (log 10). -/
inductive EncErr where
  | noError
  | unsupportedChar
  | invalidDit
  deriving DecidableEq, Repr

/-- `CMD_ERR` (10_state.md R34). Codes 4-7, "never written", have no constructor (log 10). -/
inductive CmdErr where
  | noError
  | illegal
  | busy
  | range
  deriving DecidableEq, Repr

/-- What the host drives on the input ports at one clock edge (10_state.md R21). -/
structure EdgeInput where
  rst : Bool
  cmdValid : Bool
  cmdWord : Word
  symReady : Bool
  deriving DecidableEq, Repr

/-- The message buffer: the written bytes, at strictly rising indices (10_state.md R22). An index that
is not listed is unwritten, so the listing is also `WRITTEN` (R36). -/
abbrev Memory := List Host.Cell

/-- The block's state elements (10_state.md R22-R34), and after them four fields of the model's own. -/
structure State where
  /-- `MSG` and `WRITTEN` (R22, R36). -/
  msg : Memory
  /-- `LEN` (R23). -/
  len : BitVec 9
  /-- `DIT_CW` (R24). -/
  ditCw : Dit
  /-- `DIT_QRSS` (R25). -/
  ditQrss : Dit
  /-- `PHASE` (R26). -/
  phase : Phase
  /-- `MODE_L` (R27). -/
  modeL : KeyingMode
  /-- `DIT_L` (R27). -/
  ditL : Dit
  /-- `P` (R28). -/
  p : BitVec 12
  /-- `VALID` (R29). -/
  valid : Bool
  /-- `DONE` (R31). -/
  done : Bool
  /-- `ENC_ERR` (R32). -/
  encErr : EncErr
  /-- `ERR_INDEX` (R33). -/
  errIndex : BitVec 8
  /-- `ERR_BYTE` (R33). -/
  errByte : Byte
  /-- `CMD_ERR` (R34). -/
  cmdErr : CmdErr
  /-- Model's own: for how many consecutive edges PRESENT or FINISH has been enabled and not taken
  (43_commands.md R203; log 3). -/
  waited : Nat
  /-- Model's own: the counter the free values are applied to, advanced at every edge (log 2). -/
  draws : Nat
  /-- Model's own: the host's inputs at the coming edges, the next edge first (log 1). -/
  inputs : List EdgeInput
  /-- Model's own: the symbol words transferred since the last accepted START or reset, in order, the
  outputs of 43_commands.md R204 (log 7). -/
  taken : List SymWord
  deriving DecidableEq, Repr

/-- Why the machine stops with a fault. -/
inductive Fault where
  /-- Raised by a transfer in a state with `VALID = 1` where `SEQ` has no symbol at `P`. 10_state.md
  R29 excludes such a state and no reachable state is one, so this is SAFE: it stands for a bug of the
  model (93_implementation_defined.md part 2; log 8). -/
  | noPresentedSymbol
  deriving DecidableEq, Repr

/-- Why the machine has no meaning for a command. -/
inductive Refusal where
  /-- No arm answers this: every command has its meaning. SAFE. -/
  | notModelled (mnemonic : String)
  /-- Raised by START when a byte of `MSG[0..LEN-1]` is unwritten. 10_state.md R36 and 43_commands.md
  R188 ask for this refusal; that it names the lowest such index is the model's own. SAFE: the hardware
  encodes whatever the byte holds (log 5). -/
  | unwrittenMessageByte (index : Nat)
  deriving DecidableEq, Repr

/-- What a step or a command ends in. -/
abbrev Result := Host.Outcome State Fault Refusal

/-- The state after reset (10_state.md R37). Of the model's own fields, none of which the spec gives a
reset value, the counters are 0 and the lists empty (log 14). -/
def State.reset : State where
  msg := []
  len := 0
  ditCw := 0
  ditQrss := 0
  phase := .idle
  modeL := .onOffKeyed
  ditL := 0
  p := 0
  valid := false
  done := false
  encErr := .noError
  errIndex := 0
  errByte := 0
  cmdErr := .noError
  waited := 0
  draws := 0
  inputs := []
  taken := []

end Sys2Proof.Machine
end

