-- ==== Sys2Proof/Machine/Ops.lean ====
section
/-! DEFINITION. The operations every command shares: the message buffer, rejecting a command, and the
busy lock. -/

namespace Sys2Proof.Machine

/-! ## The message buffer (20_memory.md R50-R54) -/

/-- The byte written at index `a`, or none if none was written. This is what an unlisted index reads
as: no value (10_state.md R36, R37; log 5). -/
def Memory.read : Memory → Nat → Option Byte
  | [], _ => none
  | (x, v) :: m, a => if x = a then some v else Memory.read m a

/-- `MsgWrite(a, b)` (00_scope.md R10), keeping the canonical form. -/
def Memory.write : Memory → Nat → Byte → Memory
  | [], a, b => [(a, b)]
  | (x, v) :: m, a, b =>
    if a < x then (a, b) :: (x, v) :: m
    else if a = x then (a, b) :: m
    else (x, v) :: Memory.write m a b

/-- `WRITTEN[a]` (10_state.md R36). -/
def Memory.written (m : Memory) (a : Nat) : Bool := (Memory.read m a).isSome

/-- The canonical form: strictly rising indices, each below `MSG_MAX` (20_memory.md R50). -/
abbrev Memory.wf (m : Memory) : Prop :=
  m.Pairwise (fun c d => c.1 < d.1) ∧ ∀ c ∈ m, c.1 < Config.msgMax

/-- `MsgRead(a)` (00_scope.md R10). The byte of an unwritten index is a free value (log 5). -/
def msgRead (m : Memory) (a : Nat) : Byte := (Memory.read m a).getD (Config.unwrittenByte a)

/-- `MSG[0..LEN-1]` (00_scope.md R9), index 0 first (20_memory.md R52). -/
def message (s : State) : List Byte := (List.range s.len.toNat).map (msgRead s.msg)

/-- The lowest index below `LEN` whose byte is unwritten (10_state.md R36). -/
def firstUnwritten (s : State) : Option Nat :=
  (List.range s.len.toNat).find? fun a => !Memory.written s.msg a

/-! ## One thing after another -/

/-- `f` on the next state; a stop stays the stop it is. -/
def andThen (r : Result) (f : State → Result) : Result :=
  match r with
  | .next s => f s
  | .fault e => .fault e
  | .refused e => .refused e

/-! ## Rejection (43_commands.md R181) -/

/-- `reject(code)`: "nothing else changes" (43_commands.md R181). It is the block's whole reaction to a
bad command (60_exceptions.md R226). -/
def reject (code : CmdErr) (s : State) : State := { s with cmdErr := code }

/-- The busy lock (43_commands.md R183): the command's effect while `PHASE` is IDLE, the rejection
BUSY while it is RUN. -/
def whenIdle (s : State) (perform : Result) : Result :=
  if s.phase = .run then .next (reject .busy s) else perform

/-- The RANGE check, after the busy lock (43_commands.md R181, 60_exceptions.md R228). -/
def whenInRange (inRange : Bool) (s : State) (perform : Result) : Result :=
  if inRange then perform else .next (reject .range s)

end Sys2Proof.Machine
end

