-- ==== Sys2Proof/Machine/Encoder.lean ====
section
/-! DEFINITION. The pure function `encode` (41_message_encoder.md), and `SEQ` (10_state.md R30). -/

namespace Sys2Proof.Machine

/-- The errors of an encoding (60_exceptions.md R221). -/
inductive EncodeError where
  | invalidDit
  | unsupportedCharacter (index : Nat) (byte : Byte)
  deriving DecidableEq, Repr

/-- The two results of `encode` (00_scope.md R10). -/
inductive EncodeResult where
  | ok (symbols : List TimedSymbol)
  | err (e : EncodeError)
  deriving DecidableEq, Repr

/-- The lowest index, counted from `k`, of an unsupported byte, with the byte (41_message_encoder.md
R131, R134). -/
def firstUnsupported (caseFold : Bool) : List Byte → Nat → Option (Nat × Byte)
  | [], _ => none
  | b :: rest, k => if supported caseFold b then firstUnsupported caseFold rest (k + 1) else some (k, b)

/-- The kept characters `C`: the supported bytes, in order (41_message_encoder.md R132, R135). -/
def keptCharacters (caseFold : Bool) (msg : List Byte) : List Byte := msg.filter (supported caseFold)

/-- The InterCharacterGap after a kept non-space character: exactly when a next kept character exists
and is not a space (41_message_encoder.md R139). -/
def gapBefore (caseFold : Bool) : List Byte → List MorseSymbol
  | [] => []
  | next :: _ => if elementCount caseFold next = 0 then [] else [.interCharacterGap]

/-- What one kept character contributes before `rest`: a WordGap for the space (41_message_encoder.md
R136), else its elements with an IntraCharacterGap between each two (R137, R138) and the gap after
them (R139). -/
def characterKinds (caseFold : Bool) (c : Byte) (rest : List Byte) : List MorseSymbol :=
  if elementCount caseFold c = 0 then [.wordGap]
  else (pattern caseFold c).intersperse .intraCharacterGap ++ gapBefore caseFold rest

/-- `Kinds(C)` (41_message_encoder.md R131). -/
def kinds (caseFold : Bool) : List Byte → List MorseSymbol
  | [] => []
  | c :: rest => characterKinds caseFold c rest ++ kinds caseFold rest

/-- The unsupported byte that ends the encoding: the lowest one under the abort policy (41_message_encoder.md
R134), none under the skip policy (R135). -/
def abortingByte (par : Config.Params) (msg : List Byte) : Option (Nat × Byte) :=
  (firstUnsupported par.caseFold msg 0).filter fun _ => !par.skipUnsupported

/-- `encode(MSG[0..LEN-1], mode, dit)` (41_message_encoder.md R131): the dit check first (R133), then
the policy on unsupported bytes (R134, R135). -/
def encodeMessage (par : Config.Params) (msg : List Byte) (mode : KeyingMode) (dit : Dit) :
    EncodeResult :=
  if dit = 0 then .err .invalidDit
  else
    match abortingByte par msg with
    | some (k, b) => .err (.unsupportedCharacter k b)
    | none => .ok (key (kinds par.caseFold (keptCharacters par.caseFold msg)) mode dit)

/-- `SEQ` of the state (10_state.md R30). -/
def seq (par : Config.Params) (s : State) : EncodeResult :=
  encodeMessage par (message s) s.modeL s.ditL

/-- `SEQ[P]`, where there is one. -/
def symbolAtP (par : Config.Params) (s : State) : Option TimedSymbol :=
  match seq par s with
  | .ok symbols => symbols[s.p.toNat]?
  | .err _ => none

/-- Whether a further symbol follows the one at `P`: `s.P + 1 < len(SEQ)` (43_commands.md R200). -/
def anotherFollows (par : Config.Params) (s : State) : Bool :=
  match seq par s with
  | .ok symbols => decide (s.p.toNat + 1 < symbols.length)
  | .err _ => false

end Sys2Proof.Machine
end

