-- ==== Sys2Proof/Machine/Flags.lean ====
section
/-! DEFINITION. The status fields: their codes on the output ports, how START clears them and how FINISH
computes them (10_state.md R31-R34). -/

namespace Sys2Proof.Machine

/-- `ENC_ERR` in 2 bits (10_state.md R32). -/
def EncErr.code : EncErr → BitVec 2
  | .noError => 0
  | .unsupportedChar => 1
  | .invalidDit => 2

/-- `CMD_ERR` in 3 bits (10_state.md R34). -/
def CmdErr.code : CmdErr → BitVec 3
  | .noError => 0
  | .illegal => 1
  | .busy => 2
  | .range => 3

/-- `PHASE = RUN`, the output `busy` (10_state.md R21, R26). -/
def busy (s : State) : Bool := decide (s.phase = .run)

/-- START's clearing of `DONE`, `ENC_ERR`, `ERR_INDEX` and `ERR_BYTE` (43_commands.md R188,
60_exceptions.md R227). -/
def clearStatus (s : State) : State :=
  { s with done := false, encErr := .noError, errIndex := 0, errByte := 0 }

/-- FINISH's report of the encoding's result (43_commands.md R202, 60_exceptions.md R221): `Ok` leaves
the three fields as they are, `index` is cut to 8 bits. -/
def reportResult (result : EncodeResult) (s : State) : State :=
  match result with
  | .ok _ => s
  | .err .invalidDit => { s with encErr := .invalidDit }
  | .err (.unsupportedCharacter index byte) =>
    { s with encErr := .unsupportedChar, errIndex := BitVec.ofNat 8 index, errByte := byte }

end Sys2Proof.Machine
end

