-- ==== Sys2Proof/Machine/Operands.lean ====
section
/-! DEFINITION. What the commands' operands mean (30_encoding.md R73, R74): every operand is an unsigned
field, taken as is; its range check, and the dit register a mode selects. -/

namespace Sys2Proof.Machine

/-- WRMSG's `index` is in range when below `MSG_MAX` (43_commands.md R184). With `MSG_MAX` = 256 every
8-bit index is (20_memory.md R51). -/
def indexInRange (index : BitVec 8) : Bool := decide (index.toNat < Config.msgMax)

/-- SETLEN's `len` is in range when at most `MSG_MAX` (43_commands.md R185). -/
def lenInRange (len : BitVec 9) : Bool := decide (len.toNat ≤ Config.msgMax)

/-- The dit register that a mode selects: `DIT_CW` for OOK, `DIT_QRSS` for FSK (30_encoding.md R74,
10_state.md R27). -/
def selectedDit (mode : KeyingMode) (s : State) : Dit :=
  match mode with
  | .onOffKeyed => s.ditCw
  | .frequencyShiftKeyed => s.ditQrss

end Sys2Proof.Machine
end

