-- ==== Sys2Proof/Machine/ControlCommands.lean ====
section
/-! DEFINITION. The commands of the formats F-START and F-NONE: START, CLRERR and NOP. -/

namespace Sys2Proof.Machine

/-- The writes of an accepted START (43_commands.md R188), and the start of a new record of taken
symbols, which is the model's own (log 7). -/
def beginRun (mode : KeyingMode) (s : State) : State :=
  clearStatus { s with
    modeL := mode, ditL := selectedDit mode s, p := 0, valid := false, phase := .run, taken := [] }

/-- START (43_commands.md R188). It is refused when a byte below `LEN` is unwritten (10_state.md R36;
log 5). -/
def execStart (mode : KeyingMode) (s : State) : Result :=
  whenIdle s <|
    match firstUnwritten s with
    | some index => .refused (.unwrittenMessageByte index)
    | none => .next (beginRun mode s)

/-- CLRERR (43_commands.md R189): `CMD_ERR <- 0`, while RUN too. -/
def execClrerr (s : State) : Result := .next { s with cmdErr := .noError }

/-- NOP (43_commands.md R190): no state change, while RUN too. -/
def execNop (s : State) : Result := .next s

end Sys2Proof.Machine
end

