-- ==== Sys2Proof/Machine/DitCommands.lean ====
section
/-! DEFINITION. The commands of the format F-DIT: SETDITCW and SETDITQRSS. -/

namespace Sys2Proof.Machine

/-- SETDITCW (43_commands.md R186): `DIT_CW <- dit`; 0 is stored too. -/
def execSetditcw (dit : Dit) (s : State) : Result :=
  whenIdle s <| .next { s with ditCw := dit }

/-- SETDITQRSS (43_commands.md R187): `DIT_QRSS <- dit`; 0 is stored too. -/
def execSetditqrss (dit : Dit) (s : State) : Result :=
  whenIdle s <| .next { s with ditQrss := dit }

end Sys2Proof.Machine
end

