-- ==== Sys2Proof/Machine/MessageCommands.lean ====
section
/-! DEFINITION. The commands of the formats F-MSG and F-LEN: WRMSG and SETLEN. -/

namespace Sys2Proof.Machine

/-- WRMSG (43_commands.md R184): `MSG[index] <- byte`, which also sets `WRITTEN[index]`. -/
def execWrmsg (index : BitVec 8) (byte : Byte) (s : State) : Result :=
  whenIdle s <| whenInRange (indexInRange index) s <|
    .next { s with msg := Memory.write s.msg index.toNat byte }

/-- SETLEN (43_commands.md R185): `LEN <- len`. -/
def execSetlen (len : BitVec 9) (s : State) : Result :=
  whenIdle s <| whenInRange (lenInRange len) s <| .next { s with len := len }

end Sys2Proof.Machine
end

