-- ==== Sys2Proof/Machine/Dispatch.lean ====
section
/-! DEFINITION. One arm per command. -/

namespace Sys2Proof.Machine

/-- The effect of a legal command accepted in state `s` (43_commands.md R181). -/
def exec (i : Instr) (s : State) : Host.Outcome State Fault Refusal :=
  match i with
  | .nop => Sys2Proof.Machine.execNop s
  | .wrmsg index byte => Sys2Proof.Machine.execWrmsg index byte s
  | .setlen len => Sys2Proof.Machine.execSetlen len s
  | .setditcw dit => Sys2Proof.Machine.execSetditcw dit s
  | .setditqrss dit => Sys2Proof.Machine.execSetditqrss dit s
  | .start mode => Sys2Proof.Machine.execStart mode s
  | .clrerr => Sys2Proof.Machine.execClrerr s

end Sys2Proof.Machine
end

