-- ==== Sys2Proof/Machine/SymbolStream.lean ====
section
/-! DEFINITION. The symbol side of a clock edge: Transfer, PRESENT, FINISH and the stall
(43_commands.md R200-R203). Every condition is read from `pre`, the state before the edge; the writes
go onto `s`, the state the command of the same edge left (43_commands.md R180, 00_scope.md R11). -/

namespace Sys2Proof.Machine

/-- What the block may choose at one edge: to take an enabled internal step, and to let the next symbol
follow a transfer back to back. -/
structure Choice where
  takeStep : Bool
  follow : Bool
  deriving DecidableEq, Repr

/-- The choice at the edge with the number `draws`: free values (log 2). -/
def drawnChoice (draws : Nat) : Choice where
  takeStep := Config.internalStepTaken draws
  follow := Config.nextSymbolFollows draws

/-- PRESENT is enabled, at an edge with no transfer (43_commands.md R201). -/
def presentEnabled (par : Config.Params) (s : State) : Bool :=
  match seq par s with
  | .ok symbols => busy s && decide (s.p.toNat < symbols.length) && !s.valid
  | .err _ => false

/-- FINISH is enabled, at an edge with no transfer (43_commands.md R202). -/
def finishEnabled (par : Config.Params) (s : State) : Bool :=
  match seq par s with
  | .ok symbols => busy s && decide (s.p.toNat = symbols.length) && !s.valid
  | .err _ => busy s && !s.valid

/-- An enabled internal step is taken when the block chooses so, and at the latest at the `LAT_MAX`-th
consecutive edge at which it is enabled (43_commands.md R203). -/
def stepDue (par : Config.Params) (choice : Choice) (pre : State) : Bool :=
  choice.takeStep || decide (par.latMax ≤ pre.waited + 1)

/-- Transfer of `SEQ[P]` (43_commands.md R200): `P` and `VALID`, and the record of what the host has
taken (log 7). -/
def transferSymbol (symbol : TimedSymbol) (validAfter : Bool) (pre s : State) : State :=
  { s with p := pre.p + 1, valid := validAfter, waited := 0, taken := s.taken ++ [symbol.word] }

/-- Transfer (43_commands.md R200); without a symbol at `P` there is no word to transfer (log 8). -/
def transfer (par : Config.Params) (choice : Choice) (pre s : State) : Result :=
  match symbolAtP par pre with
  | some symbol => .next (transferSymbol symbol (anotherFollows par pre && choice.follow) pre s)
  | none => .fault .noPresentedSymbol

/-- PRESENT (43_commands.md R201). -/
def present (s : State) : State := { s with valid := true, waited := 0 }

/-- FINISH (43_commands.md R202, 60_exceptions.md R226). -/
def finish (par : Config.Params) (pre s : State) : State :=
  reportResult (seq par pre) { s with phase := .idle, done := true, waited := 0 }

/-- An edge at which an enabled internal step is not taken (43_commands.md R203). -/
def stall (pre s : State) : State := { s with waited := pre.waited + 1 }

/-- An edge at which neither a transfer nor an internal step is enabled. -/
def quiet (s : State) : State := { s with waited := 0 }

/-- The symbol side of an edge without reset (43_commands.md R180). -/
def symbolSide (par : Config.Params) (choice : Choice) (symReady : Bool) (pre s : State) : Result :=
  if pre.valid && symReady then transfer par choice pre s
  else if presentEnabled par pre then
    .next (if stepDue par choice pre then present s else stall pre s)
  else if finishEnabled par pre then
    .next (if stepDue par choice pre then finish par pre s else stall pre s)
  else .next (quiet s)

end Sys2Proof.Machine
end

