-- ==== Sys2Proof/Machine/Edge.lean ====
section
/-! DEFINITION. One rising edge of `clk` (43_commands.md R180). -/

namespace Sys2Proof.Machine

/-- What the host drives when no input is listed: nothing (log 1). -/
def idleInput : EdgeInput where
  rst := false
  cmdValid := false
  cmdWord := 0
  symReady := false

/-- What the host drives at the next edge. -/
def nextInput (s : State) : EdgeInput := s.inputs.head?.getD idleInput

/-- The model's own bookkeeping of an edge: the input is used up and the draw counter advances. -/
def consumeInput (s : State) : State := { s with inputs := s.inputs.tail, draws := s.draws + 1 }

/-- Reset (70_reset_and_hazards.md R250): every state element takes its reset value. The host's coming
inputs and the draw counter, which are no state of the block, go on (log 14). -/
def resetEdge (s : State) : State := { State.reset with draws := s.draws, inputs := s.inputs }

/-- `Exec(w, s)` (43_commands.md R181): an illegal word is rejected, a legal one executed. -/
def acceptWord (w : Word) (s : State) : Result :=
  match decode w with
  | .ok i => exec i s
  | .error _ => .next (reject .illegal s)

/-- The command side of an edge without reset: `cmd_ready` is 1, so an offered word is accepted
(43_commands.md R180, R182). -/
def commandSide (input : EdgeInput) (s : State) : Result :=
  if input.cmdValid then acceptWord input.cmdWord s else .next s

/-- One clock edge, with the parameters and the block's choice as arguments (43_commands.md R180). -/
def edgeWith (par : Config.Params) (choice : Choice) (s : State) : Result :=
  let input := nextInput s
  let s₀ := consumeInput s
  if input.rst then .next (resetEdge s₀)
  else
    andThen (commandSide input s₀) (symbolSide par choice input.symReady s₀)

/-- One clock edge of this hardware: its parameters, and free choices. -/
def edge (s : State) : Result := edgeWith Config.params (drawnChoice s.draws) s

/-- `s` with the input of the next edge replaced: `word` offered on the command port, no reset; the
host's `sym_ready` at that edge and its inputs at later edges stay. -/
def offerWord (word : Word) (s : State) : State :=
  { s with inputs :=
      { rst := false, cmdValid := true, cmdWord := word, symReady := (nextInput s).symReady } ::
        s.inputs.tail }

end Sys2Proof.Machine
end

