-- ==== Sys2Proof/Machine/Step.lean ====
section
/-! DEFINITION. The machine's step: one clock edge. -/

namespace Sys2Proof.Machine

/-- One step is one rising edge of `clk` (43_commands.md R180). -/
def step (s : State) : Host.Outcome State Fault Refusal := edge s

/-- `s` with the command word offered on the command port at the next edge, so that the next step
executes exactly it. The block fetches no instructions (20_memory.md R58): see assumption log 9. -/
def State.withFetchWord (s : State) (nbits w : Nat) : State := offerWord (tableWord nbits w) s

end Sys2Proof.Machine
end

