-- ==== Sys2Proof/Machine/Assembler.lean ====
section
/-! DEFINITION. The assembler of 30_encoding.md R84 and R85, from the bytes of a source text to command
words. It stands beside the machine and no step reads it. Where R84 is silent on how characters group
into operands, log 12 says what is done. -/

namespace Sys2Proof.Asm

/-- The ASCII bytes of a word (00_scope.md R9). -/
def ascii (cs : List Char) : List Byte := cs.map fun c => BitVec.ofNat 8 c.toNat

/-! ## Statements to commands -/

/-- LOADMSG's writes `WRMSG k, c(k)`, `WRMSG k+1, c(k+1)`, ... (30_encoding.md R85). -/
def loadWrites : List Byte → Nat → List Instr
  | [], _ => []
  | c :: rest, k => .wrmsg (BitVec.ofNat 8 k) c :: loadWrites rest (k + 1)

/-- A mode operand (30_encoding.md R84). -/
def modeOfNat (n : Nat) : KeyingMode := if n = 0 then .onOffKeyed else .frequencyShiftKeyed

/-- The commands of a well-formed statement (30_encoding.md R84, R85). -/
def Stmt.expand : Stmt → List Instr
  | .nop => [.nop]
  | .clrerr => [.clrerr]
  | .wrmsg index byte => [.wrmsg (BitVec.ofNat 8 index) (BitVec.ofNat 8 byte)]
  | .setlen len => [.setlen (BitVec.ofNat 9 len)]
  | .setditcw ms => [.setditcw (BitVec.ofNat 28 ms)]
  | .setditqrss ms => [.setditqrss (BitVec.ofNat 28 ms)]
  | .start mode => [.start (modeOfNat mode)]
  | .loadmsg text => .setlen (BitVec.ofNat 9 text.length) :: loadWrites text 0
  | .sendcw => [.start .onOffKeyed]
  | .sendqrss => [.start .frequencyShiftKeyed]
  | .waitidle => []

/-- Why a line is refused. -/
inductive Reason where
  /-- "an operand that does not fit its field", or a text longer than `MSG_MAX` (R84, R85). -/
  | operandDoesNotFit
  /-- The first word of the line is no mnemonic in upper case. -/
  | unknownMnemonic
  /-- The operands do not have the form R84 gives the mnemonic. -/
  | malformedOperands
  /-- A quoted character or text does not end on its line. -/
  | unterminatedQuote
  deriving DecidableEq, Repr

/-- "It never truncates": a statement whose operand does not fit is refused (R84). -/
def Stmt.assemble (s : Stmt) : Except Reason (List Instr) :=
  if s.wellFormed then .ok s.expand else .error .operandDoesNotFit

/-! ## Lines to statements -/

/-- The pieces of a line. -/
inductive Token where
  | word (cs : List Byte)
  | comma
  | charLit (b : Byte)
  | textLit (bs : List Byte)
  deriving DecidableEq, Repr

/-- Where in a line the reader stands; the bytes of an unfinished piece are kept last byte first. -/
inductive LexMode where
  | between
  | inWord (acc : List Byte)
  | quoteOpen
  | quoted (b : Byte)
  | inText (acc : List Byte)
  | comment
  deriving DecidableEq, Repr

/-- Space, tab and carriage return separate pieces (log 12). -/
def isBlank (b : Byte) : Bool := b == 0x20 || b == 0x09 || b == 0x0D

/-- One byte outside a quote or comment, given the pieces before it, newest first (R84: commas,
quoted characters, `;` comments). -/
def lexPlain (b : Byte) (out : List Token) : LexMode × List Token :=
  if isBlank b then (.between, out)
  else if b = 0x3B then (.comment, out)
  else if b = 0x2C then (.between, .comma :: out)
  else if b = 0x27 then (.quoteOpen, out)
  else if b = 0x22 then (.inText [], out)
  else (.inWord [b], out)

/-- Whether a byte ends a word. -/
def endsWord (b : Byte) : Bool :=
  isBlank b || b == 0x3B || b == 0x2C || b == 0x27 || b == 0x22

/-- The pieces of a line, read byte by byte. -/
def lexLine : List Byte → LexMode → List Token → Except Reason (List Token)
  | [], .between, out => .ok out.reverse
  | [], .comment, out => .ok out.reverse
  | [], .inWord acc, out => .ok (.word acc.reverse :: out).reverse
  | [], .quoteOpen, _ => .error .unterminatedQuote
  | [], .quoted _, _ => .error .unterminatedQuote
  | [], .inText _, _ => .error .unterminatedQuote
  | b :: rest, .between, out => lexLine rest (lexPlain b out).1 (lexPlain b out).2
  | _ :: rest, .comment, out => lexLine rest .comment out
  | b :: rest, .inWord acc, out =>
    if endsWord b then
      lexLine rest (lexPlain b (.word acc.reverse :: out)).1 (lexPlain b (.word acc.reverse :: out)).2
    else lexLine rest (.inWord (b :: acc)) out
  | b :: rest, .quoteOpen, out => lexLine rest (.quoted b) out
  | b :: rest, .quoted c, out =>
    if b = 0x27 then lexLine rest .between (.charLit c :: out) else .error .unterminatedQuote
  | b :: rest, .inText acc, out =>
    if b = 0x22 then lexLine rest .between (.textLit acc.reverse :: out)
    else lexLine rest (.inText (b :: acc)) out

/-- The value of a digit in a base up to 16. -/
def digitValue (base : Nat) (b : Byte) : Option Nat :=
  let n := b.toNat
  let v := if 0x30 ≤ n ∧ n ≤ 0x39 then some (n - 0x30)
    else if 0x41 ≤ n ∧ n ≤ 0x46 then some (n - 0x41 + 10)
    else if 0x61 ≤ n ∧ n ≤ 0x66 then some (n - 0x61 + 10)
    else none
  v.filter fun d => decide (d < base)

/-- The value of a run of digits after a value read so far. -/
def digitsValue (base : Nat) : List Byte → Nat → Option Nat
  | [], acc => some acc
  | b :: rest, acc =>
    match digitValue base b with
    | some d => digitsValue base rest (acc * base + d)
    | none => none

/-- A number: decimal, or hexadecimal after `0x` (R84). -/
def number : List Byte → Option Nat
  | [] => none
  | 0x30 :: 0x78 :: d :: ds => digitsValue 16 (d :: ds) 0
  | d :: ds => digitsValue 10 (d :: ds) 0

/-- A statement with one number as operand. -/
def withNumber (args : List Token) (f : Nat → Stmt) : Except Reason Stmt :=
  match args with
  | [.word w] => match number w with
    | some n => .ok (f n)
    | none => .error .malformedOperands
  | _ => .error .malformedOperands

/-- A statement without operands. -/
def withNone (args : List Token) (s : Stmt) : Except Reason Stmt :=
  match args with
  | [] => .ok s
  | _ => .error .malformedOperands

/-- WRMSG's operands: an index and a byte, which may be a quoted character (R84). -/
def wrmsgOperands (args : List Token) : Except Reason Stmt :=
  match args with
  | [.word i, .comma, .word b] => match number i, number b with
    | some index, some byte => .ok (.wrmsg index byte)
    | _, _ => .error .malformedOperands
  | [.word i, .comma, .charLit c] => match number i with
    | some index => .ok (.wrmsg index c.toNat)
    | none => .error .malformedOperands
  | _ => .error .malformedOperands

/-- START's operand: `OOK`, `FSK`, or the digit 0 or 1; any other number is read so that it is refused
as not fitting (R84; log 12). -/
def startOperands (args : List Token) : Except Reason Stmt :=
  match args with
  | [.word w] =>
    if w = ascii ['O', 'O', 'K'] ∨ w = ascii ['0'] then .ok (.start 0)
    else if w = ascii ['F', 'S', 'K'] ∨ w = ascii ['1'] then .ok (.start 1)
    else match number w with
      | some n => if 1 < n then .ok (.start n) else .error .malformedOperands
      | none => .error .malformedOperands
  | _ => .error .malformedOperands

/-- LOADMSG's operand: one quoted text (R85). -/
def loadmsgOperands (args : List Token) : Except Reason Stmt :=
  match args with
  | [.textLit text] => .ok (.loadmsg text)
  | _ => .error .malformedOperands

/-- The statement of a mnemonic and its operands (R84, R85). -/
def statement (m : List Byte) (args : List Token) : Except Reason Stmt :=
  if m = ascii ['N', 'O', 'P'] then withNone args .nop
  else if m = ascii ['C', 'L', 'R', 'E', 'R', 'R'] then withNone args .clrerr
  else if m = ascii ['W', 'R', 'M', 'S', 'G'] then wrmsgOperands args
  else if m = ascii ['S', 'E', 'T', 'L', 'E', 'N'] then withNumber args .setlen
  else if m = ascii ['S', 'E', 'T', 'D', 'I', 'T', 'C', 'W'] then withNumber args .setditcw
  else if m = ascii ['S', 'E', 'T', 'D', 'I', 'T', 'Q', 'R', 'S', 'S'] then withNumber args .setditqrss
  else if m = ascii ['S', 'T', 'A', 'R', 'T'] then startOperands args
  else if m = ascii ['L', 'O', 'A', 'D', 'M', 'S', 'G'] then loadmsgOperands args
  else if m = ascii ['S', 'E', 'N', 'D', 'C', 'W'] then withNone args .sendcw
  else if m = ascii ['S', 'E', 'N', 'D', 'Q', 'R', 'S', 'S'] then withNone args .sendqrss
  else if m = ascii ['W', 'A', 'I', 'T', 'I', 'D', 'L', 'E'] then withNone args .waitidle
  else .error .unknownMnemonic

/-- The commands of one line; a line with no statement has none. -/
def assembleLine (line : List Byte) : Except Reason (List Instr) :=
  match lexLine line .between [] with
  | .error r => .error r
  | .ok [] => .ok []
  | .ok (.word m :: args) => match statement m args with
    | .error r => .error r
    | .ok s => s.assemble
  | .ok (_ :: _) => .error .unknownMnemonic

/-! ## Source text to words -/

/-- "one command per line" (R84): the text cut at each line feed. -/
def splitLines : List Byte → List Byte → List (List Byte)
  | [], acc => [acc.reverse]
  | b :: rest, acc => if b = 0x0A then acc.reverse :: splitLines rest [] else splitLines rest (b :: acc)

/-- "An assembler refuses, by name and line" (R84): the first refused line, counted from 1. -/
structure Error where
  line : Nat
  reason : Reason
  deriving DecidableEq, Repr

/-- The words of the lines from number `n` on. -/
def assembleLines : List (List Byte) → Nat → Except Error (List Word)
  | [], _ => .ok []
  | l :: rest, n =>
    match assembleLine l with
    | .error r => .error ⟨n, r⟩
    | .ok is => match assembleLines rest (n + 1) with
      | .error e => .error e
      | .ok ws => .ok (is.map encode ++ ws)

/-- The command words of a source text (R84, R85). -/
def assemble (source : List Byte) : Except Error (List Word) := assembleLines (splitLines source []) 1

end Sys2Proof.Asm
end

