-- ==== Sys2Proof/Machine/Ports.lean ====
section
/-! DEFINITION. The output ports (10_state.md R21). Every output is a function of the state alone, but
for `cmd_ready`, which also depends on `rst`. -/

namespace Sys2Proof.Machine

/-- The output ports (10_state.md R21). -/
structure Outputs where
  cmdReady : Bool
  symValid : Bool
  symWord : SymWord
  busy : Bool
  done : Bool
  encErr : BitVec 2
  errIndex : BitVec 8
  errByte : Byte
  cmdErr : BitVec 3
  deriving DecidableEq, Repr

/-- `sym_word`: `SEQ[P]` while `VALID` is 1 (10_state.md R29), a free value otherwise
(70_reset_and_hazards.md R260; log 6). -/
def symWordPort (par : Config.Params) (s : State) : SymWord :=
  if s.valid then ((symbolAtP par s).map TimedSymbol.word).getD (Config.idleSymWord s.draws)
  else Config.idleSymWord s.draws

/-- The outputs in the cycle before an edge, with `rst` as it is driven in that cycle. -/
def outputs (rst : Bool) (s : State) : Outputs where
  cmdReady := !rst
  symValid := s.valid
  symWord := symWordPort Config.params s
  busy := busy s
  done := s.done
  encErr := s.encErr.code
  errIndex := s.errIndex
  errByte := s.errByte
  cmdErr := s.cmdErr.code

/-- How the consumer reads a failed message: `done = 1` with `enc_err = 1` is the source's
`EncodingFailed` (60_exceptions.md R222). -/
def encodingFailed (o : Outputs) : Bool := o.done && o.encErr == 1

end Sys2Proof.Machine
end

