-- ==== Sys2Proof/Safety.lean ====
section
/-! DEFINITION. What a safe state is, and the words the statements use. -/

namespace Sys2Proof.Machine

/-! ## The invariant -/

/-- `VALID = 1` implies `PHASE = RUN`, `SEQ` is `Ok` and `P < len(SEQ)` (10_state.md R29). -/
abbrev validPresents (par : Config.Params) (s : State) : Prop :=
  s.valid = true → s.phase = .run ∧ (symbolAtP par s).isSome = true

/-- While RUN, the inputs of the encoding are as START left them: every byte below `LEN` written
(10_state.md R36), `DIT_L` the selected dit (R27), `DONE` and `ENC_ERR` clear (R31, R32). -/
abbrev runInputs (s : State) : Prop :=
  s.phase = .run → firstUnwritten s = none ∧ s.ditL = selectedDit s.modeL s ∧ s.done = false ∧
    s.encErr = .noError

/-- `P` counts the symbols transferred, and those are the first `P` of `SEQ`, in order; an error has
none (10_state.md R28, 43_commands.md R200, R204). -/
def positionMatches (par : Config.Params) (s : State) : Bool :=
  match seq par s with
  | .ok symbols =>
    decide (s.p.toNat ≤ symbols.length ∧
      s.taken = (symbols.take s.p.toNat).map TimedSymbol.word)
  | .err _ => decide (s.p = 0 ∧ s.taken = [])

/-- `ENC_ERR` is only ever nonzero with `DONE`, and the error fields are 0 unless it is
UNSUPPORTED_CHAR (10_state.md R32, R33). -/
abbrev statusMatches (s : State) : Prop :=
  (s.encErr ≠ .noError → s.done = true) ∧
    (s.encErr ≠ .unsupportedChar → s.errIndex = 0 ∧ s.errByte = 0)

/-- What every state of a run from reset satisfies, for each value of the open parameters: the message
buffer is canonical (20_memory.md R50), `LEN` legal (10_state.md R23), and the clauses above; an
enabled internal step has not waited for `LAT_MAX` edges (43_commands.md R203). -/
abbrev RunInvariant (par : Config.Params) (s : State) : Prop :=
  Memory.wf s.msg ∧ s.len.toNat ≤ Config.msgMax ∧ validPresents par s ∧ runInputs s ∧
    (s.phase = .run → positionMatches par s = true) ∧ statusMatches s ∧ s.waited < par.latMax

/-! ## Words of the statements -/

/-- The must-be-zero bits of the payload, by opcode (30_encoding.md R72). -/
def mustBeZero (op : BitVec 4) : Word :=
  if op = 0x0 then 0x0FFFFFFF
  else if op = 0x1 then 0x0FFF0000
  else if op = 0x2 then 0x0FFFFE00
  else if op = 0x5 then 0x0FFFFFFE
  else if op = 0x6 then 0x0FFFFFFF
  else 0

/-- An illegal command word: a reserved opcode, or a must-be-zero bit set (30_encoding.md R75). -/
def illegalWord (w : Word) : Bool :=
  decide (7 ≤ (w >>> 28).toNat) || (w &&& mustBeZero (opField w)) != 0

/-- `CMD_ERR` after an edge without reset in RUN: the only state element a command writes there
(43_commands.md R183, 60_exceptions.md R230). -/
def cmdErrInRun (input : EdgeInput) (s : State) : CmdErr :=
  if input.cmdValid then
    match decode input.cmdWord with
    | .error _ => .illegal
    | .ok .nop => s.cmdErr
    | .ok .clrerr => .noError
    | .ok _ => .busy
  else s.cmdErr

/-- The state after an edge without reset in RUN, before the symbol side: `CMD_ERR`, and the model's own
bookkeeping. -/
def afterCommandInRun (s : State) : State :=
  { s with
    cmdErr := cmdErrInRun (nextInput s) s, inputs := s.inputs.tail, draws := s.draws + 1 }

/-- Commands executed one after another. -/
def execAll : List Instr → State → Result
  | [], s => .next s
  | i :: is, s => andThen (exec i s) (execAll is)

/-- Every byte below `LEN` is written (10_state.md R36). -/
abbrev messageWritten (s : State) : Prop :=
  ∀ a < s.len.toNat, Memory.written s.msg a = true

/-- What the host drives at an edge at which it only takes symbols. -/
def readyInput : EdgeInput where
  rst := false
  cmdValid := false
  cmdWord := 0
  symReady := true

/-- The sum of a list of numbers over symbols. -/
def sumOver (f : TimedSymbol → Nat) (symbols : List TimedSymbol) : Nat := (symbols.map f).sum

/-- The "elements in order" of A to M (40_morse_table.md R104). -/
def morseLettersAtoM : List (Byte × List MorseSymbol) :=
  [(0x41, [.dot, .dash]),
   (0x42, [.dash, .dot, .dot, .dot]),
   (0x43, [.dash, .dot, .dash, .dot]),
   (0x44, [.dash, .dot, .dot]),
   (0x45, [.dot]),
   (0x46, [.dot, .dot, .dash, .dot]),
   (0x47, [.dash, .dash, .dot]),
   (0x48, [.dot, .dot, .dot, .dot]),
   (0x49, [.dot, .dot]),
   (0x4A, [.dot, .dash, .dash, .dash]),
   (0x4B, [.dash, .dot, .dash]),
   (0x4C, [.dot, .dash, .dot, .dot]),
   (0x4D, [.dash, .dash])]

/-- The "elements in order" of N to Z (40_morse_table.md R104). -/
def morseLettersNtoZ : List (Byte × List MorseSymbol) :=
  [(0x4E, [.dash, .dot]),
   (0x4F, [.dash, .dash, .dash]),
   (0x50, [.dot, .dash, .dash, .dot]),
   (0x51, [.dash, .dash, .dot, .dash]),
   (0x52, [.dot, .dash, .dot]),
   (0x53, [.dot, .dot, .dot]),
   (0x54, [.dash]),
   (0x55, [.dot, .dot, .dash]),
   (0x56, [.dot, .dot, .dot, .dash]),
   (0x57, [.dot, .dash, .dash]),
   (0x58, [.dash, .dot, .dot, .dash]),
   (0x59, [.dash, .dot, .dash, .dash]),
   (0x5A, [.dash, .dash, .dot, .dot])]

/-- The "elements in order" of the digits (40_morse_table.md R105). -/
def morseDigits : List (Byte × List MorseSymbol) :=
  [(0x30, [.dash, .dash, .dash, .dash, .dash]),
   (0x31, [.dot, .dash, .dash, .dash, .dash]),
   (0x32, [.dot, .dot, .dash, .dash, .dash]),
   (0x33, [.dot, .dot, .dot, .dash, .dash]),
   (0x34, [.dot, .dot, .dot, .dot, .dash]),
   (0x35, [.dot, .dot, .dot, .dot, .dot]),
   (0x36, [.dash, .dot, .dot, .dot, .dot]),
   (0x37, [.dash, .dash, .dot, .dot, .dot]),
   (0x38, [.dash, .dash, .dash, .dot, .dot]),
   (0x39, [.dash, .dash, .dash, .dash, .dot])]

/-- The "elements in order" of the punctuation (40_morse_table.md R106). -/
def morsePunctuation : List (Byte × List MorseSymbol) :=
  [(0x2E, [.dot, .dash, .dot, .dash, .dot, .dash]),
   (0x2C, [.dash, .dash, .dot, .dot, .dash, .dash]),
   (0x3A, [.dash, .dash, .dash, .dot, .dot, .dot]),
   (0x3F, [.dot, .dot, .dash, .dash, .dot, .dot]),
   (0x27, [.dot, .dash, .dash, .dash, .dash, .dot]),
   (0x2D, [.dash, .dot, .dot, .dot, .dot, .dash]),
   (0x2F, [.dash, .dot, .dot, .dash, .dot]),
   (0x28, [.dash, .dot, .dash, .dash, .dot]),
   (0x29, [.dash, .dot, .dash, .dash, .dot, .dash]),
   (0x22, [.dot, .dash, .dot, .dot, .dash, .dot]),
   (0x3D, [.dash, .dot, .dot, .dot, .dash]),
   (0x2B, [.dot, .dash, .dot, .dash, .dot]),
   (0x40, [.dot, .dash, .dash, .dot, .dash, .dot])]

/-- The "elements in order" column of the Morse table, transcribed beside the entries (40_morse_table.md
R104-R106). -/
def morseColumn : List (Byte × List MorseSymbol) :=
  morseLettersAtoM ++ morseLettersNtoZ ++ morseDigits ++ morsePunctuation

end Sys2Proof.Machine
end

