-- ==== Sys2Proof/Certificates/Slice0/Obligations.lean ====
section
/-! DEFINITION. The statements about the machine, for the provers. Each docstring names the rule of the
spec it formalises. -/

open Sys2Proof Sys2Proof.Machine

/-! ## Reset -/

/-- 10_state.md R37: the value of every state element after reset (`MSG` unspecified, so no byte is
written), and a START straight after reset ends with INVALID_DIT. -/
def Obligations.ResetHasTheSpecValues : Prop :=
  State.reset.len = 0 ∧ State.reset.ditCw = 0 ∧ State.reset.ditQrss = 0 ∧
    State.reset.phase = .idle ∧ State.reset.modeL = .onOffKeyed ∧ State.reset.ditL = 0 ∧
    State.reset.p = 0 ∧ State.reset.valid = false ∧ State.reset.done = false ∧
    State.reset.encErr = .noError ∧ State.reset.errIndex = 0 ∧ State.reset.errByte = 0 ∧
    State.reset.cmdErr = .noError ∧ (∀ a, Memory.written State.reset.msg a = false) ∧
    ∀ mode, ∃ t, exec (.start mode) State.reset = .next t ∧
      presentEnabled Config.params t = false ∧ finishEnabled Config.params t = true ∧
      (finish Config.params t t).encErr = .invalidDit

/-- 70_reset_and_hazards.md R250: at an edge with `rst = 1` every state element takes its reset value,
whatever the host offers beside it; the outputs then show the reset state; a second such edge changes
nothing more; `cmd_ready` is 0 while `rst` is 1. That the host's coming inputs and the draw counter go
on is the model's own (log 14). -/
def Obligations.ResetDominatesTheEdge : Prop :=
  (∀ s : State, (nextInput s).rst = true →
    ∃ t, step s = .next t ∧
      t = { State.reset with inputs := s.inputs.tail, draws := s.draws + 1 } ∧
      (∀ rst, (outputs rst t).symValid = false ∧ (outputs rst t).busy = false ∧
        (outputs rst t).done = false ∧ (outputs rst t).encErr = 0 ∧
        (outputs rst t).errIndex = 0 ∧ (outputs rst t).errByte = 0 ∧ (outputs rst t).cmdErr = 0) ∧
      ((nextInput t).rst = true →
        step t = .next { State.reset with inputs := t.inputs.tail, draws := t.draws + 1 })) ∧
    ∀ rst s, (outputs rst s).cmdReady = !rst

/-! ## Command words -/

/-- 30_encoding.md R86: the worked command encodings, and the examples of illegal words. -/
def Obligations.WorkedCommandWordsDecode : Prop :=
  (∀ row ∈ ([(.nop, 0x00000000), (.wrmsg 0 0x53, 0x10000053), (.wrmsg 1 0x4F, 0x1000014F),
      (.wrmsg 255 0x20, 0x1000FF20), (.setlen 3, 0x20000003), (.setlen 256, 0x20000100),
      (.setditcw 100, 0x30000064), (.setditqrss 6000, 0x40001770),
      (.start .onOffKeyed, 0x50000000), (.start .frequencyShiftKeyed, 0x50000001),
      (.clrerr, 0x60000000)] : List (Instr × Word)),
    decode row.2 = .ok row.1 ∧ encode row.1 = row.2) ∧
  ∀ w ∈ ([0x70000000, 0x00000001, 0x50000002, 0x10010000] : List Word), ∃ e, decode w = .error e

/-- 30_encoding.md R70-R74: decoding an encoded command gives it back, with every operand at every value
its field holds. -/
def Obligations.DecodeOfEncodeIsTheCommand : Prop :=
  ∀ i : Instr, decode (encode i) = .ok i

/-- 30_encoding.md R70-R75: a word that decodes is the encoding of what it decodes to, so every legal
command has one word. -/
def Obligations.EncodeOfDecodeIsTheWord : Prop :=
  ∀ (w : Word) (i : Instr), decode w = .ok i → encode i = w

/-- 30_encoding.md R76: the match and mask values by opcode; a word selects a row of the match and mask table exactly when it decodes to that
row's command, and no word selects two rows. -/
def Obligations.DecodeFollowsMatchAndMask : Prop :=
  opcodeRows.map (fun r => (r.opcode, r.matchWord, r.mask)) =
    [(0x0, 0x00000000, 0xFFFFFFFF), (0x1, 0x10000000, 0xFFFF0000), (0x2, 0x20000000, 0xFFFFFE00),
     (0x3, 0x30000000, 0xF0000000), (0x4, 0x40000000, 0xF0000000), (0x5, 0x50000000, 0xFFFFFFFE),
     (0x6, 0x60000000, 0xFFFFFFFF)] ∧
  (∀ w : Word, ∀ r ∈ opcodeRows,
    (r.selects w = true ↔ ∃ i, decode w = .ok i ∧ i.opcode = r.opcode)) ∧
  ∀ w : Word, ∀ r ∈ opcodeRows, ∀ r' ∈ opcodeRows, r.selects w = true → r'.selects w = true → r = r'

/-- 30_encoding.md R75: a word is illegal exactly when its opcode is reserved or a must-be-zero bit is
set; it then changes nothing but `CMD_ERR`, busy or not; every other word selects exactly one row. -/
def Obligations.IllegalWordsAreRejected : Prop :=
  ∀ w : Word,
    ((∃ e, decode w = .error e) ↔ illegalWord w = true) ∧
    (illegalWord w = true → ∀ s, acceptWord w s = .next { s with cmdErr := .illegal }) ∧
    (illegalWord w = false → ∃ r ∈ opcodeRows, r.selects w = true ∧
      ∀ r' ∈ opcodeRows, r'.selects w = true → r' = r)

/-- 60_exceptions.md R228: ILLEGAL comes before BUSY and BUSY before RANGE, for every word in every
state; with `MSG_MAX` = 256 no WRMSG index is out of range (20_memory.md R51), so RANGE is SETLEN's. -/
def Obligations.ChecksAreTakenInOrder : Prop :=
  ∀ (w : Word) (s : State),
    (illegalWord w = true → acceptWord w s = .next { s with cmdErr := .illegal }) ∧
    (illegalWord w = false → s.phase = .run → opField w ≠ 0x0 → opField w ≠ 0x6 →
      acceptWord w s = .next { s with cmdErr := .busy }) ∧
    (field w 8 8).toNat < Config.msgMax ∧
    (illegalWord w = false → s.phase = .idle → opField w = 0x2 →
      Config.msgMax < (field w 0 9).toNat → acceptWord w s = .next { s with cmdErr := .range })

/-- 43_commands.md R184, with 10_state.md R36's `WRITTEN`: WRMSG by its word, its rejections, and its
corner cases (a byte at or above `LEN` is no part of the message; the later byte is kept). -/
def Obligations.WrmsgWordStoresOneByteOrIsRejected : Prop :=
  (∀ (w : Word) (s : State), opField w = 0x1 →
    acceptWord w s =
      if field w 16 12 ≠ 0 then .next { s with cmdErr := .illegal }
      else if s.phase = .run then .next { s with cmdErr := .busy }
      else if Config.msgMax ≤ (field w 8 8).toNat then .next { s with cmdErr := .range }
      else .next { s with msg := Memory.write s.msg (field w 8 8).toNat (field w 0 8) }) ∧
  (∀ w : Word, w &&& 0xFFFF0000 = 0x10000000 ↔ opField w = 0x1 ∧ field w 16 12 = 0) ∧
  (∀ (m : Memory) (a c : Nat) (b : Byte),
    Memory.read (Memory.write m a b) c = if c = a then some b else Memory.read m c) ∧
  (∀ (m : Memory) (a c : Nat) (b : Byte),
    Memory.written (Memory.write m a b) c = (decide (c = a) || Memory.written m c)) ∧
  ∀ (s : State) (a : Nat) (b : Byte), s.len.toNat ≤ a →
    message { s with msg := Memory.write s.msg a b } = message s

/-- 43_commands.md R185: SETLEN by its word, and its rejections. -/
def Obligations.SetlenWordSetsLenOrIsRejected : Prop :=
  (∀ (w : Word) (s : State), opField w = 0x2 →
    acceptWord w s =
      if field w 9 19 ≠ 0 then .next { s with cmdErr := .illegal }
      else if s.phase = .run then .next { s with cmdErr := .busy }
      else if Config.msgMax < (field w 0 9).toNat then .next { s with cmdErr := .range }
      else .next { s with len := field w 0 9 }) ∧
  ∀ w : Word, w &&& 0xFFFFFE00 = 0x20000000 ↔ opField w = 0x2 ∧ field w 9 19 = 0

/-- 43_commands.md R186, R187: SETDITCW and SETDITQRSS by their words; they are never ILLEGAL and store
every value, 0 and 2^28 - 1 too; a later START of the mode whose dit is 0 ends with INVALID_DIT. -/
def Obligations.DitWordsSetTheirRegister : Prop :=
  (∀ (w : Word) (s : State), opField w = 0x3 →
    acceptWord w s =
      if s.phase = .run then .next { s with cmdErr := .busy }
      else .next { s with ditCw := field w 0 28 }) ∧
  (∀ (w : Word) (s : State), opField w = 0x4 →
    acceptWord w s =
      if s.phase = .run then .next { s with cmdErr := .busy }
      else .next { s with ditQrss := field w 0 28 }) ∧
  (∀ w : Word, (w &&& 0xF0000000 = 0x30000000 ↔ opField w = 0x3) ∧
    (w &&& 0xF0000000 = 0x40000000 ↔ opField w = 0x4)) ∧
  ∀ (par : Config.Params) (s t : State) (mode : KeyingMode), s.phase = .idle →
    (match mode with
      | .onOffKeyed => s.ditCw
      | .frequencyShiftKeyed => s.ditQrss) = 0 →
    exec (.start mode) s = .next t →
      presentEnabled par t = false ∧ finishEnabled par t = true ∧
      (finish par t t).encErr = .invalidDit

/-- 43_commands.md R188: START by its word: the nine elements it writes, its rejections, the model's
refusal, and `SEQ` from then on. That it also empties the record of taken symbols (log 7) and that the
refusal carries the lowest unwritten index (log 5) is the model's own. -/
def Obligations.StartWordBeginsARunOrIsRejected : Prop :=
  (∀ (w : Word) (s : State), opField w = 0x5 →
    acceptWord w s =
      if field w 1 27 ≠ 0 then .next { s with cmdErr := .illegal }
      else if s.phase = .run then .next { s with cmdErr := .busy }
      else match firstUnwritten s with
        | some a => .refused (.unwrittenMessageByte a)
        | none => .next { s with
            modeL := modeOfBit (field w 0 1)
            ditL := if field w 0 1 = 0 then s.ditCw else s.ditQrss
            p := 0, valid := false, phase := .run, done := false, encErr := .noError
            errIndex := 0, errByte := 0, taken := [] }) ∧
  (∀ w : Word, w &&& 0xFFFFFFFE = 0x50000000 ↔ opField w = 0x5 ∧ field w 1 27 = 0) ∧
  ∀ (par : Config.Params) (s t : State) (mode : KeyingMode), s.phase = .idle →
    exec (.start mode) s = .next t →
      seq par t = encodeMessage par (message s) mode (selectedDit mode s)

/-- 43_commands.md R189, R190: CLRERR and NOP by their words, in any phase; a CLRERR word with a
must-be-zero bit set sets `CMD_ERR` instead. -/
def Obligations.ClrerrAndNopWordsInAnyPhase : Prop :=
  (∀ (w : Word) (s : State), opField w = 0x6 →
    acceptWord w s =
      if field w 0 28 ≠ 0 then .next { s with cmdErr := .illegal }
      else .next { s with cmdErr := .noError }) ∧
  (∀ (w : Word) (s : State), opField w = 0x0 →
    acceptWord w s =
      if field w 0 28 ≠ 0 then .next { s with cmdErr := .illegal } else .next s) ∧
  ∀ w : Word, (w &&& 0xFFFFFFFF = 0x60000000 ↔ opField w = 0x6 ∧ field w 0 28 = 0) ∧
    (w &&& 0xFFFFFFFF = 0x00000000 ↔ opField w = 0x0 ∧ field w 0 28 = 0)

/-! ## Commands complete, and what they leave alone -/

/-- 43_commands.md R184: while IDLE, WRMSG answers the state with that one byte stored, and every other
byte reads as before. -/
def Obligations.WrmsgCompletes : Prop :=
  ∀ (s : State) (index : BitVec 8) (byte : Byte), s.phase = .idle →
    exec (.wrmsg index byte) s = .next { s with msg := Memory.write s.msg index.toNat byte } ∧
    ∀ a, Memory.read (Memory.write s.msg index.toNat byte) a =
      if a = index.toNat then some byte else Memory.read s.msg a

/-- 43_commands.md R185-R187: while IDLE, SETLEN of at most `MSG_MAX`, SETDITCW and SETDITQRSS answer
the state with that one register written, so every byte reads as before; a longer SETLEN is rejected
RANGE. -/
def Obligations.SettersComplete : Prop :=
  ∀ s : State, s.phase = .idle →
    (∀ len : BitVec 9, exec (.setlen len) s =
      if len.toNat ≤ Config.msgMax then .next { s with len := len }
      else .next { s with cmdErr := .range }) ∧
    (∀ dit : Dit, exec (.setditcw dit) s = .next { s with ditCw := dit }) ∧
    ∀ dit : Dit, exec (.setditqrss dit) s = .next { s with ditQrss := dit }

/-- 43_commands.md R188: while IDLE and with every byte below `LEN` written, START answers the state with
its nine elements written; every byte reads as before. That it empties the record of taken symbols is
the model's own (log 7). -/
def Obligations.StartCompletes : Prop :=
  ∀ (s : State) (mode : KeyingMode), s.phase = .idle → messageWritten s →
    exec (.start mode) s = .next { s with
      modeL := mode
      ditL := match mode with
        | .onOffKeyed => s.ditCw
        | .frequencyShiftKeyed => s.ditQrss
      p := 0, valid := false, phase := .run, done := false, encErr := .noError
      errIndex := 0, errByte := 0, taken := [] }

/-- 43_commands.md R189, R190: in every state, CLRERR clears `CMD_ERR` alone and NOP changes nothing. -/
def Obligations.ClrerrAndNopComplete : Prop :=
  ∀ s : State, exec .clrerr s = .next { s with cmdErr := .noError } ∧ exec .nop s = .next s

/-- 10_state.md R36: WRMSG sets `WRITTEN[i]` alone, reset clears every one, and while IDLE a START with
an unwritten byte below `LEN` is refused. That the refusal names the lowest such byte is the model's own
(log 5). -/
def Obligations.StartRefusesAnUnwrittenByte : Prop :=
  (∀ (s t : State) (index : BitVec 8) (byte : Byte), s.phase = .idle →
    exec (.wrmsg index byte) s = .next t →
      ∀ a, Memory.written t.msg a = (decide (a = index.toNat) || Memory.written s.msg a)) ∧
  (∀ a s, Memory.written (resetEdge s).msg a = false) ∧
  ∀ (s : State) (mode : KeyingMode) (a : Nat), s.phase = .idle → a < s.len.toNat →
    Memory.written s.msg a = false → (∀ b < a, Memory.written s.msg b = true) →
      exec (.start mode) s = .refused (.unwrittenMessageByte a)

/-- 70_reset_and_hazards.md R264: a command performed again and again changes nothing more, but for
START, whose repetitions are rejected BUSY. -/
def Obligations.RepeatedCommandsAreIdempotent : Prop :=
  ∀ (i : Instr) (s t : State) (k : Nat), exec i s = .next t →
    execAll (List.replicate (k + 2) i) s = .next (match i with
      | .start _ => { t with cmdErr := .busy }
      | _ => t)

/-- 43_commands.md R183: in RUN only NOP and CLRERR are performed; an edge without reset leaves every
input of the encoding as it is, so `SEQ` keeps its value; and only FINISH ends the RUN. -/
def Obligations.RunIsLockedAgainstCommands : Prop :=
  (∀ (w : Word) (i : Instr) (s : State), s.phase = .run → decode w = .ok i →
    acceptWord w s = .next (match i with
      | .nop => s
      | .clrerr => { s with cmdErr := .noError }
      | _ => { s with cmdErr := .busy })) ∧
  ∀ (par : Config.Params) (choice : Choice) (s t : State), s.phase = .run →
    (nextInput s).rst = false → edgeWith par choice s = .next t →
      t.msg = s.msg ∧ t.len = s.len ∧ t.ditCw = s.ditCw ∧ t.ditQrss = s.ditQrss ∧
      t.modeL = s.modeL ∧ t.ditL = s.ditL ∧ seq par t = seq par s ∧
      (t.phase = .run ∨ (finishEnabled par s = true ∧ t.done = true))

/-! ## The clock edge -/

/-- 43_commands.md R180, R181: a step is an edge with this hardware's parameters and free choices. The
command offered at it is decoded and executed on the state before the edge, an illegal word
sets `CMD_ERR` to ILLEGAL, and the symbol side follows; in IDLE nothing but that happens. The model's
own: the free choices (log 2), the count `waited` set back (log 3), the host's `inputs` and the counter
`draws` moving on (logs 1, 2), and that `withFetchWord` offers its word at the next edge (log 9). -/
def Obligations.StepRunsTheDecodedCommand : Prop :=
  (∀ s : State, step s = edgeWith Config.params (drawnChoice s.draws) s) ∧
  (∀ (par : Config.Params) (choice : Choice) (s : State) (i : Instr),
    (nextInput s).rst = false → (nextInput s).cmdValid = true →
    decode (nextInput s).cmdWord = .ok i →
      edgeWith par choice s = andThen (exec i (consumeInput s))
        (symbolSide par choice (nextInput s).symReady (consumeInput s)) ∧
      (s.phase = .idle → s.valid = false →
        edgeWith par choice s = andThen (exec i (consumeInput s))
          fun u => .next { u with waited := 0 })) ∧
  (∀ (par : Config.Params) (choice : Choice) (s : State),
    (nextInput s).rst = false → (nextInput s).cmdValid = true →
    illegalWord (nextInput s).cmdWord = true →
      edgeWith par choice s =
        symbolSide par choice (nextInput s).symReady (consumeInput s)
          { consumeInput s with cmdErr := .illegal } ∧
      (s.phase = .idle → s.valid = false →
        edgeWith par choice s = .next { s with
          cmdErr := .illegal, waited := 0, inputs := s.inputs.tail, draws := s.draws + 1 })) ∧
  ∀ (s : State) (nbits w : Nat) (i : Instr), decodeTableWord nbits w = some i →
    decode (nextInput (s.withFetchWord nbits w)).cmdWord = .ok i ∧
    (nextInput (s.withFetchWord nbits w)).rst = false ∧
    (nextInput (s.withFetchWord nbits w)).cmdValid = true

/-- 60_exceptions.md R237: while IDLE and with no command offered, the block holds its state, whatever
`sym_ready` is. The model's own: `inputs` and `draws` move on (logs 1, 2) and `waited` is set back
(log 3). -/
def Obligations.IdleEdgeHoldsTheState : Prop :=
  ∀ (par : Config.Params) (choice : Choice) (s : State), s.phase = .idle → s.valid = false →
    (nextInput s).rst = false → (nextInput s).cmdValid = false →
      edgeWith par choice s =
        .next { s with waited := 0, inputs := s.inputs.tail, draws := s.draws + 1 }

/-- 43_commands.md R200: at an edge with `VALID = 1` and `sym_ready = 1` the host takes `SEQ[P]`, `P`
advances by one without wrapping, and `VALID` is a free choice while symbols remain and 0 after the
last; a command of the same edge writes `CMD_ERR` alone. The RUN goes on, so FINISH is not at this
edge. The symbols taken before it are the first `P` of `SEQ`, in order. The model's own: the record
`taken` (log 7), the count `waited` set back (log 3), `inputs` and `draws` moving on (logs 1, 2). -/
def Obligations.TransferTakesTheSymbolAtP : Prop :=
  ∀ (par : Config.Params) (choice : Choice) (s : State), RunInvariant par s →
    (nextInput s).rst = false → s.valid = true → (nextInput s).symReady = true →
      ∃ L sym, seq par s = .ok L ∧ L[s.p.toNat]? = some sym ∧
        s.taken = (L.take s.p.toNat).map TimedSymbol.word ∧
        symWordPort par s = sym.word ∧ (s.p + 1).toNat = s.p.toNat + 1 ∧
        edgeWith par choice s = .next { afterCommandInRun s with
          p := s.p + 1
          valid := decide (s.p.toNat + 1 < L.length) && choice.follow
          waited := 0
          taken := s.taken ++ [sym.word] }

/-- 43_commands.md R201 and R203: at an edge where PRESENT is enabled the block presents `SEQ[P]`, or
stalls while it may. The model's own: the choice (log 2), the count `waited` (log 3), `inputs` and
`draws` moving on (logs 1, 2). -/
def Obligations.PresentEdgePresentsOrStalls : Prop :=
  ∀ (par : Config.Params) (choice : Choice) (s : State) (L : List TimedSymbol),
    (nextInput s).rst = false → s.phase = .run → s.valid = false → seq par s = .ok L →
    s.p.toNat < L.length →
      edgeWith par choice s =
        if choice.takeStep = true ∨ par.latMax ≤ s.waited + 1 then
          .next { afterCommandInRun s with valid := true, waited := 0 }
        else .next { afterCommandInRun s with waited := s.waited + 1 }

/-- 43_commands.md R201, 70_reset_and_hazards.md R251: once presented, a symbol is `SEQ[P]` on
`sym_word` and stays, unchanged, at every edge without its transfer and without reset; reset withdraws
it, with no transfer and no FINISH. The record `taken` is the model's own (log 7). -/
def Obligations.PresentedSymbolIsStable : Prop :=
  ∀ (par : Config.Params) (choice : Choice) (s : State), RunInvariant par s → s.valid = true →
    ((nextInput s).rst = false → (nextInput s).symReady = false →
      ∃ t sym, edgeWith par choice s = .next t ∧ t.valid = true ∧ t.p = s.p ∧
        symbolAtP par s = some sym ∧ symWordPort par s = sym.word ∧
        symWordPort par t = sym.word ∧ t.taken = s.taken) ∧
    ((nextInput s).rst = true →
      ∃ t, edgeWith par choice s = .next t ∧ t.valid = false ∧ t.phase = .idle ∧
        t.done = false)

/-- 43_commands.md R202, R203: at an edge where FINISH is enabled the block goes to IDLE with `DONE = 1` and
the encoding's error reported, or stalls while it may; at the edge of a transfer the RUN goes on; under
an error PRESENT is not enabled. The model's own: the choice (log 2), the count `waited` (log 3),
`inputs` and `draws` moving on (logs 1, 2). -/
def Obligations.FinishEdgeReportsOrStalls : Prop :=
  ∀ (par : Config.Params) (choice : Choice) (s : State),
    (nextInput s).rst = false → s.phase = .run →
      let due := choice.takeStep = true ∨ par.latMax ≤ s.waited + 1
      let stalled : State := { afterCommandInRun s with waited := s.waited + 1 }
      let ended : State := { afterCommandInRun s with phase := .idle, done := true, waited := 0 }
      (s.valid = false →
        (∀ L, seq par s = .ok L → s.p.toNat = L.length →
          (due → edgeWith par choice s = .next ended) ∧
          (¬due → edgeWith par choice s = .next stalled)) ∧
        (seq par s = .err .invalidDit →
          (due → edgeWith par choice s = .next { ended with encErr := .invalidDit }) ∧
          (¬due → edgeWith par choice s = .next stalled)) ∧
        ∀ k b, seq par s = .err (.unsupportedCharacter k b) →
          (due → edgeWith par choice s = .next { ended with
            encErr := .unsupportedChar, errIndex := BitVec.ofNat 8 k, errByte := b }) ∧
          (¬due → edgeWith par choice s = .next stalled)) ∧
      (s.valid = true → ∀ t, edgeWith par choice s = .next t → t.phase = .run ∧ t.done = s.done) ∧
      ∀ e, seq par s = .err e → presentEnabled par s = false

/-- 70_reset_and_hazards.md R265: while `sym_valid` is 0, `sym_ready` has no effect; no output depends on
the `sym_ready` of its own cycle. -/
def Obligations.SymReadyHasNoEffectWhileNothingIsPresented : Prop :=
  ∀ (s : State) (input : EdgeInput) (rest : List EdgeInput) (ready : Bool),
    (s.valid = false → ∀ (par : Config.Params) (choice : Choice),
      edgeWith par choice { s with inputs := { input with symReady := ready } :: rest } =
        edgeWith par choice { s with inputs := input :: rest }) ∧
    ∀ rst, outputs rst { s with inputs := { input with symReady := ready } :: rest } =
      outputs rst { s with inputs := input :: rest }

/-! ## The invariant -/

/-- 10_state.md R37, R29: the reset state meets the invariant, for each value of the open
parameters. That `waited` is below `LAT_MAX` there rests on the model's own reset value 0 of that count
(logs 3, 14). -/
def Obligations.ResetMeetsTheInvariant : Prop :=
  RunInvariant Config.params State.reset ∧
    ∀ par : Config.Params, 1 ≤ par.latMax → RunInvariant par State.reset

/-- 10_state.md R23, R27-R29, R31-R33 and 20_memory.md R50: every step keeps the invariant,
for each value of the open parameters and each choice of the block. The clauses on the record `taken`
(log 7) and on the count `waited` (log 3) are about the model's own fields. -/
def Obligations.StepKeepsTheInvariant : Prop :=
  (∀ s t : State, RunInvariant Config.params s → step s = .next t → RunInvariant Config.params t) ∧
  ∀ (par : Config.Params) (choice : Choice) (s t : State), RunInvariant par s →
    edgeWith par choice s = .next t → RunInvariant par t

/-- 43_commands.md R181, R188: from a state that meets the invariant, a step answers a next state, unless
the edge offers a START over an unwritten byte while IDLE. That the refusal carries the index of such a
byte is the model's own (log 5). -/
def Obligations.StepStopsOnlyAtAnUnwrittenStart : Prop :=
  ∀ s : State, RunInvariant Config.params s →
    (∃ t, step s = .next t) ∨
    ((nextInput s).rst = false ∧ (nextInput s).cmdValid = true ∧ s.phase = .idle ∧
      ∃ mode a, decode (nextInput s).cmdWord = .ok (.start mode) ∧ a < s.len.toNat ∧
        Memory.written s.msg a = false ∧ step s = .refused (.unwrittenMessageByte a))

/-- 43_commands.md R204: when a RUN ends without reset, the symbols taken since its START are exactly
`SEQ`, in order, or none under an error, and the status fields say which. The record `taken` is the model's
own (log 7). -/
def Obligations.FinishedRunTransferredTheSequence : Prop :=
  ∀ (par : Config.Params) (choice : Choice) (s t : State), RunInvariant par s → s.phase = .run →
    (nextInput s).rst = false → edgeWith par choice s = .next t → t.phase = .idle →
      t.done = true ∧
      (∀ L, seq par s = .ok L →
        t.taken = L.map TimedSymbol.word ∧ t.encErr = .noError) ∧
      (seq par s = .err .invalidDit → t.taken = [] ∧ t.encErr = .invalidDit ∧
        t.errIndex = 0 ∧ t.errByte = 0) ∧
      ∀ k b, seq par s = .err (.unsupportedCharacter k b) → t.taken = [] ∧
        t.encErr = .unsupportedChar ∧ t.errIndex = BitVec.ofNat 8 k ∧ t.errByte = b

/-- 43_commands.md R203: whatever commands the host offers, an enabled PRESENT or FINISH is taken within
`LAT_MAX` edges without reset. -/
def Obligations.EnabledStepIsTakenWithinLatMax : Prop :=
  ∀ s : State, (presentEnabled Config.params s = true ∨ finishEnabled Config.params s = true) →
    (∀ input ∈ s.inputs.take Config.params.latMax, input.rst = false) →
      ∃ k t, k < Config.params.latMax ∧ Host.Core.run Sys2Proof.core (k + 1) s = .next t ∧
        (if presentEnabled Config.params s = true then t.valid = true ∧ t.p = s.p
         else t.phase = .idle ∧ t.done = true)

/-- 43_commands.md R204: a host that only takes symbols sees every RUN end within a bounded number of
edges, with exactly the symbols of `SEQ` taken in order, or none and the error's code. The record
`taken` (log 7), the host as a list of inputs (log 1) and the steps as free choices (logs 2, 3) are the
model's own. -/
def Obligations.ReadyHostSeesTheRunEnd : Prop :=
  ∀ (s : State) (n : Nat) (rest : List EdgeInput), RunInvariant Config.params s →
    s.phase = .run → s.inputs = List.replicate n readyInput ++ rest →
    (∀ L, seq Config.params s = .ok L →
      (L.length - s.p.toNat) * (Config.params.latMax + 1) + Config.params.latMax ≤ n →
        ∃ k t, k ≤ n ∧ Host.Core.run Sys2Proof.core k s = .next t ∧ t.phase = .idle ∧
          t.done = true ∧ t.encErr = .noError ∧ t.taken = L.map TimedSymbol.word) ∧
    ∀ e, seq Config.params s = .err e → Config.params.latMax ≤ n →
      ∃ k t, k ≤ n ∧ Host.Core.run Sys2Proof.core k s = .next t ∧ t.phase = .idle ∧
        t.done = true ∧ t.taken = [] ∧
        t.encErr = match e with
          | .invalidDit => .invalidDit
          | .unsupportedCharacter _ _ => .unsupportedChar

/-- 10_state.md R39, 41_message_encoder.md R141: what a START encodes depends only on the written bytes
below `LEN`, on the mode and on the selected dit, not on anything an earlier encoding left; and after it nothing of
an earlier encoding stands but the message buffer, `LEN`, the dit registers and `CMD_ERR`. That
the two answers agree on the record `taken`, which START empties, is the model's own (log 7), as are the
fields `waited`, `draws` and `inputs` they may differ in (logs 1-3). -/
def Obligations.StartIsIndependentOfHistory : Prop :=
  ∀ (par : Config.Params) (mode : KeyingMode) (s₁ s₂ : State), s₁.phase = .idle → s₂.phase = .idle →
    messageWritten s₁ → s₁.len = s₂.len →
    (∀ a < s₁.len.toNat, Memory.read s₁.msg a = Memory.read s₂.msg a) →
    selectedDit mode s₁ = selectedDit mode s₂ →
      ∃ t₁ t₂, exec (.start mode) s₁ = .next t₁ ∧ exec (.start mode) s₂ = .next t₂ ∧
        seq par t₁ = seq par t₂ ∧
        t₁ = { t₂ with
          msg := s₁.msg, ditCw := s₁.ditCw, ditQrss := s₁.ditQrss, cmdErr := s₁.cmdErr
          waited := s₁.waited, draws := s₁.draws, inputs := s₁.inputs }

/-! ## The Morse table -/

/-- 40_morse_table.md R103-R107: each listed character has the elements the rules list, the space is
supported and has none, and every other byte is unsupported. -/
def Obligations.MorseTableHasTheListedPatterns : Prop :=
  (∀ row ∈ morseColumn, supported false row.1 = true ∧ pattern false row.1 = row.2) ∧
  rom 0x20 = 0x200 ∧
  ∀ b : Byte, b ≠ 0x20 → (∀ row ∈ morseColumn, row.1 ≠ b) → rom b = 0 ∧ supported false b = false

/-- 40_morse_table.md R101: the entry format: an invalid entry is 0, only the space is valid with no
elements, every other valid entry has 1 to 6, pattern bit `j` is element `j`, 0 a Dot and 1 a Dash, and
the pattern bits above them are 0. -/
def Obligations.MorseEntriesHaveTheirFormat : Prop :=
  ∀ b : Byte,
    (entryValid (rom b) = false → entryCount (rom b) = 0 ∧ entryPattern (rom b) = 0) ∧
    (entryValid (rom b) = true → entryCount (rom b) = 0 → b = 0x20) ∧
    (entryValid (rom b) = true → b ≠ 0x20 → 1 ≤ entryCount (rom b) ∧ entryCount (rom b) ≤ 6) ∧
    (pattern false b).length = entryCount (rom b) ∧
    (∀ j < entryCount (rom b),
      (pattern false b)[j]? = some (if (rom b).getLsbD j then .dash else .dot)) ∧
    ∀ j : Nat, entryCount (rom b) ≤ j → (entryPattern (rom b)).getLsbD j = false

/-- 40_morse_table.md R108: 50 bytes are supported, no two of them but the space share a pattern, no
pattern is longer than 6, letters have 1 to 4 elements and digits 5. -/
def Obligations.MorseTableProperties : Prop :=
  ((List.range 256).filter fun n => supported false (BitVec.ofNat 8 n)).length = 50 ∧
  (∀ b c : Byte, supported false b = true → supported false c = true → b ≠ 0x20 → c ≠ 0x20 →
    pattern false b = pattern false c → b = c) ∧
  (∀ b : Byte, (pattern false b).length ≤ 6) ∧
  (∀ b : Byte, 0x41 ≤ b.toNat → b.toNat ≤ 0x5A →
    1 ≤ (pattern false b).length ∧ (pattern false b).length ≤ 4) ∧
  ∀ b : Byte, 0x30 ≤ b.toNat → b.toNat ≤ 0x39 → (pattern false b).length = 5

/-- 40_morse_table.md R102: with `CASE_FOLD` a lower-case letter is looked up as its upper-case letter
and every other byte as itself; without it every byte is looked up as itself, so no lower-case letter
is supported; the pattern and the support of a byte are those of the entry looked up. -/
def Obligations.CaseFoldingIsOnlyOfLetters : Prop :=
  (∀ b : Byte, 0x61 ≤ b.toNat → b.toNat ≤ 0x7A →
    lookup true b = rom (b - 0x20) ∧ supported true b = true ∧ supported false b = false) ∧
  (∀ b : Byte, (b.toNat < 0x61 ∨ 0x7A < b.toNat) → lookup true b = rom b) ∧
  (∀ b : Byte, lookup false b = rom b) ∧
  ∀ (cf : Bool) (b : Byte), supported cf b = (lookup cf b).getLsbD 9 ∧
    (pattern cf b).length = entryCount (lookup cf b) ∧
    ∀ j < entryCount (lookup cf b),
      (pattern cf b)[j]? = some (if (lookup cf b).getLsbD j then .dash else .dot)

/-! ## The message encoder -/

/-- 41_message_encoder.md R133: a zero dit, and nothing else, is InvalidDit, before any character and
for the empty message too. -/
def Obligations.InvalidDitComesFirst : Prop :=
  ∀ (par : Config.Params) (msg : List Byte) (mode : KeyingMode) (dit : Dit),
    encodeMessage par msg mode dit = .err .invalidDit ↔ dit = 0

/-- 41_message_encoder.md R134: under the abort policy the lowest unsupported byte, and nothing else, is
reported, and under an error no symbol is presented. -/
def Obligations.AbortReportsTheLowestUnsupportedByte : Prop :=
  (∀ (par : Config.Params) (msg : List Byte) (mode : KeyingMode) (dit : Dit) (k : Nat) (b : Byte),
    par.skipUnsupported = false → dit ≠ 0 →
      (encodeMessage par msg mode dit = .err (.unsupportedCharacter k b) ↔
        msg[k]? = some b ∧ supported par.caseFold b = false ∧
          ∀ j c, j < k → msg[j]? = some c → supported par.caseFold c = true)) ∧
  ∀ (par : Config.Params) (s : State) (e : EncodeError), seq par s = .err e →
    presentEnabled par s = false ∧ symbolAtP par s = none

/-- 41_message_encoder.md R135: under the skip policy an unsupported byte is as if it were not in the
message, and `UnsupportedCharacter` never results. -/
def Obligations.SkipLeavesUnsupportedBytesOut : Prop :=
  ∀ (par : Config.Params) (msg : List Byte) (mode : KeyingMode) (dit : Dit),
    par.skipUnsupported = true →
      encodeMessage par msg mode dit =
        encodeMessage par (msg.filter (supported par.caseFold)) mode dit ∧
      (∀ k b, encodeMessage par msg mode dit ≠ .err (.unsupportedCharacter k b)) ∧
      ((∀ b ∈ msg, supported par.caseFold b = false) →
        encodeMessage par msg mode dit = encodeMessage par [] mode dit)

/-- 41_message_encoder.md R140: the empty message gives the empty sequence, so does one of unsupported
bytes under the skip policy, and a message of spaces gives as many WordGaps alone. -/
def Obligations.EmptyMessageGivesTheEmptySequence : Prop :=
  ∀ (par : Config.Params) (mode : KeyingMode) (dit : Dit), dit ≠ 0 →
    encodeMessage par [] mode dit = .ok [] ∧
    (∀ msg, par.skipUnsupported = true → (∀ b ∈ msg, supported par.caseFold b = false) →
      encodeMessage par msg mode dit = .ok []) ∧
    ∀ n, ∃ L, encodeMessage par (List.replicate n 0x20) mode dit = .ok L ∧
      L.map TimedSymbol.kind = List.replicate n .wordGap

/-- 41_message_encoder.md R137, R138: what a kept character that is no space contributes: its elements
in order with an IntraCharacterGap between each two, `2n - 1` symbols, and at most one
InterCharacterGap after them. The kinds of the message are these contributions, one after another. -/
def Obligations.CharacterIsElementsWithGapsBetween : Prop :=
  ∀ (cf : Bool) (c : Byte) (rest : List Byte), elementCount cf c ≠ 0 →
    kinds cf (c :: rest) = characterKinds cf c rest ++ kinds cf rest ∧
    ∃ E g, characterKinds cf c rest = E ++ g ∧ (g = [] ∨ g = [.interCharacterGap]) ∧
      E.length = 2 * elementCount cf c - 1 ∧
      (∀ j < elementCount cf c, E[2 * j]? = (pattern cf c)[j]?) ∧
      ∀ j, j + 1 < elementCount cf c → E[2 * j + 1]? = some .intraCharacterGap

/-- 41_message_encoder.md R132, R136, R139: a kept space is one WordGap in its place, with no
InterCharacterGap beside it; between two kept characters that are no spaces stands one
InterCharacterGap; after the last kept character that is no space stands nothing. The symbols of a message that is not
aborted are those of its supported bytes, in index order. -/
def Obligations.GapsStandBetweenCharactersAndForSpaces : Prop :=
  (∀ (cf : Bool) (a b : List Byte) (c d : Byte),
    (elementCount cf c = 0 → kinds cf (a ++ c :: b) = kinds cf a ++ .wordGap :: kinds cf b) ∧
    (elementCount cf c ≠ 0 → elementCount cf d ≠ 0 →
      kinds cf (a ++ c :: d :: b) =
        kinds cf (a ++ [c]) ++ .interCharacterGap :: kinds cf (d :: b)) ∧
    (elementCount cf c ≠ 0 →
      kinds cf [c] = (pattern cf c).intersperse .intraCharacterGap ∧
      ∃ front e, kinds cf (a ++ [c]) = front ++ [e] ∧ isElement e = true)) ∧
  ∀ (par : Config.Params) (msg : List Byte) (mode : KeyingMode) (dit : Dit), dit ≠ 0 →
    par.skipUnsupported = true ∨ (∀ b ∈ msg, supported par.caseFold b = true) →
      ∃ L, encodeMessage par msg mode dit = .ok L ∧
        L.map TimedSymbol.kind = kinds par.caseFold (msg.filter (supported par.caseFold))

/-- 41_message_encoder.md R142: the bounds on the length of a sequence; the longest fits the 12 bits of
`P`. -/
def Obligations.SequenceLengthIsBounded : Prop :=
  (∀ (par : Config.Params) (msg : List Byte) (mode : KeyingMode) (dit : Dit) (L : List TimedSymbol),
    encodeMessage par msg mode dit = .ok L →
      L.length ≤ 12 * msg.length - 1 ∧
      (msg.length ≤ Config.msgMax → L.length ≤ 3071 ∧ L.length < 2 ^ 12)) ∧
  (∀ (cf : Bool) (c : Byte) (rest : List Byte),
    (elementCount cf c = 0 → (characterKinds cf c rest).length = 1) ∧
    ((pattern cf c).intersperse .intraCharacterGap).length ≤ 11 ∧
    (characterKinds cf c rest).length ≤ 12) ∧
  ∀ (par : Config.Params) (b : Byte), b ∈ ([0x45, 0x54, 0x20] : List Byte) →
    par.caseFold = false → ∀ mode, ∃ L, encodeMessage par [b] mode 100 = .ok L ∧ L.length = 1

/-- 41_message_encoder.md R143: elements and gaps alternate, but for WordGaps beside each other, and
every other gap stands between two elements. -/
def Obligations.ElementsAndGapsAlternate : Prop :=
  ∀ (par : Config.Params) (msg : List Byte) (mode : KeyingMode) (dit : Dit) (L : List TimedSymbol),
    encodeMessage par msg mode dit = .ok L →
      (∀ i x y, L[i]? = some x → L[i + 1]? = some y →
        (isElement x.kind = true → isElement y.kind = false) ∧
        (isElement x.kind = false → isElement y.kind = false →
          x.kind = .wordGap ∧ y.kind = .wordGap)) ∧
      ∀ i x, L[i]? = some x → x.kind = .intraCharacterGap ∨ x.kind = .interCharacterGap →
        ∃ j v y, i = j + 1 ∧ L[j]? = some v ∧ L[i + 1]? = some y ∧
          isElement v.kind = true ∧ isElement y.kind = true

/-- 41_message_encoder.md R144: the durations of a sequence sum to the dit duration times the sum of the
units, exactly, and below 2^43. -/
def Obligations.TotalDurationIsUnitsTimesDit : Prop :=
  ∀ (par : Config.Params) (msg : List Byte) (mode : KeyingMode) (dit : Dit) (L : List TimedSymbol),
    encodeMessage par msg mode dit = .ok L →
      sumOver (fun x => x.durMs.toNat) L = dit.toNat * sumOver (fun x => x.units.toNat) L ∧
      (msg.length ≤ Config.msgMax → sumOver (fun x => x.durMs.toNat) L < 2 ^ 43)

/-- 41_message_encoder.md R145: the corrected worked example "SOS" at 100 ms in OOK. -/
def Obligations.SosEncodesToTheWorkedSequence : Prop :=
  ∀ par : Config.Params, par.caseFold = false →
    ∃ L, encodeMessage par [0x53, 0x4F, 0x53] .onOffKeyed 100 = .ok L ∧ L.length = 17 ∧
      L.map (fun x => (x.kind, x.durMs)) =
        [(.dot, 100), (.intraCharacterGap, 100), (.dot, 100), (.intraCharacterGap, 100), (.dot, 100),
         (.interCharacterGap, 300),
         (.dash, 300), (.intraCharacterGap, 100), (.dash, 300), (.intraCharacterGap, 100),
         (.dash, 300),
         (.interCharacterGap, 300),
         (.dot, 100), (.intraCharacterGap, 100), (.dot, 100), (.intraCharacterGap, 100),
         (.dot, 100)] ∧
      sumOver (fun x => x.units.toNat) L = 27 ∧ sumOver (fun x => x.durMs.toNat) L = 2700 ∧
      L.map TimedSymbol.last = List.replicate 16 false ++ [true]

/-! ## Keying -/

/-- 42_keying.md R162, R163: a duration is exactly units times dit, at most 1,879,048,185, and never 0
for a dit that is not; so it is for each symbol of a sequence. -/
def Obligations.DurationIsExactAndNonzero : Prop :=
  (∀ (kind : MorseSymbol) (dit : Dit),
    (durationOf kind dit).toNat = (unitsOf kind).toNat * dit.toNat ∧
    (durationOf kind dit).toNat ≤ 1879048185 ∧ (durationOf kind dit).toNat < 2 ^ 31 ∧
    (durationOf .wordGap (BitVec.ofNat 28 (2 ^ 28 - 1))).toNat = 1879048185 ∧
    (dit ≠ 0 → durationOf kind dit ≠ 0)) ∧
  ∀ (par : Config.Params) (msg : List Byte) (mode : KeyingMode) (dit : Dit) (L : List TimedSymbol),
    encodeMessage par msg mode dit = .ok L →
      ∀ x ∈ L, x.durMs.toNat = x.units.toNat * dit.toNat ∧ x.durMs ≠ 0

/-- 42_keying.md R168: `last` marks the final symbol of a sequence, and no other. -/
def Obligations.LastMarksTheFinalSymbolOnly : Prop :=
  ∀ (par : Config.Params) (msg : List Byte) (mode : KeyingMode) (dit : Dit) (L : List TimedSymbol),
    encodeMessage par msg mode dit = .ok L →
      ∀ i x, L[i]? = some x → (x.last = true ↔ i + 1 = L.length)

/-- 42_keying.md R169: in FSK no symbol is carrier-off; in OOK the carrier is on exactly on the
elements. -/
def Obligations.FskNeverTurnsTheCarrierOff : Prop :=
  ∀ (par : Config.Params) (msg : List Byte) (dit : Dit) (L : List TimedSymbol),
    (encodeMessage par msg .frequencyShiftKeyed dit = .ok L → ∀ x ∈ L, x.carrier = true) ∧
    (encodeMessage par msg .onOffKeyed dit = .ok L →
      ∀ x ∈ L, (x.carrier = true ↔ x.kind = .dot ∨ x.kind = .dash))

/-- 42_keying.md R166, R167: in OOK every tone is low; in FSK the tone is high exactly on a Dash. -/
def Obligations.ToneIsHighOnlyOnFskDashes : Prop :=
  ∀ (par : Config.Params) (msg : List Byte) (mode : KeyingMode) (dit : Dit) (L : List TimedSymbol),
    encodeMessage par msg mode dit = .ok L →
      ∀ x ∈ L, (x.tone = true ↔ mode = .frequencyShiftKeyed ∧ x.kind = .dash)

/-- 42_keying.md R171: the two modes give the same kinds and units at every position, and with equal
dits the same durations. -/
def Obligations.ModeChangesOnlyCarrierAndTone : Prop :=
  ∀ (par : Config.Params) (msg : List Byte) (d₁ d₂ : Dit) (L₁ L₂ : List TimedSymbol),
    encodeMessage par msg .onOffKeyed d₁ = .ok L₁ →
    encodeMessage par msg .frequencyShiftKeyed d₂ = .ok L₂ →
      L₁.map TimedSymbol.kind = L₂.map TimedSymbol.kind ∧
      L₁.map TimedSymbol.units = L₂.map TimedSymbol.units ∧
      L₁.map TimedSymbol.last = L₂.map TimedSymbol.last ∧
      (d₁ = d₂ → L₁.map TimedSymbol.durMs = L₂.map TimedSymbol.durMs)

/-- 30_encoding.md R80: where each field of a timed keying symbol stands in the symbol word. -/
def Obligations.SymbolWordHoldsItsFields : Prop :=
  ∀ x : TimedSymbol,
    x.word.extractLsb' 0 3 = kindCode x.kind ∧ x.word.extractLsb' 3 3 = x.units ∧
    x.word.getLsbD 6 = x.carrier ∧ x.word.getLsbD 7 = x.tone ∧ x.word.getLsbD 8 = x.last ∧
    x.word.extractLsb' 9 32 = x.durMs

/-- 30_encoding.md R81, R82: on the symbol words of a sequence `kind` is the code of the symbol, 0 to 4,
and `units` is 1, 3 or 7, the function of `kind` that 42_keying.md R160 gives. -/
def Obligations.SymbolCodesStayInRange : Prop :=
  ∀ (par : Config.Params) (msg : List Byte) (mode : KeyingMode) (dit : Dit) (L : List TimedSymbol),
    encodeMessage par msg mode dit = .ok L →
      ∀ x ∈ L, (x.word.extractLsb' 0 3).toNat ≤ 4 ∧
        x.word.extractLsb' 0 3 = (match x.kind with
          | .dot => 0
          | .dash => 1
          | .intraCharacterGap => 2
          | .interCharacterGap => 3
          | .wordGap => 4) ∧
        x.word.extractLsb' 3 3 ∈ ([1, 3, 7] : List (BitVec 3)) ∧
        x.word.extractLsb' 3 3 = match x.kind with
          | .dot => 1
          | .dash => 3
          | .intraCharacterGap => 1
          | .interCharacterGap => 3
          | .wordGap => 7

/-- 30_encoding.md R83: the worked symbol words. -/
def Obligations.WorkedSymbolWords : Prop :=
  ∀ row ∈ ([(timedSymbol .dot .onOffKeyed 100 false, 0x0000C848),
      (timedSymbol .dash .onOffKeyed 100 false, 0x00025859),
      (timedSymbol .intraCharacterGap .onOffKeyed 100 false, 0x0000C80A),
      (timedSymbol .interCharacterGap .onOffKeyed 100 false, 0x0002581B),
      (timedSymbol .wordGap .onOffKeyed 100 false, 0x0005783C),
      (timedSymbol .dot .onOffKeyed 100 true, 0x0000C948),
      (timedSymbol .dash .frequencyShiftKeyed 6000 false, 0x008CA0D9),
      (timedSymbol .dot .frequencyShiftKeyed 6000 false, 0x002EE048),
      (timedSymbol .wordGap .frequencyShiftKeyed 6000 true, 0x0148217C)] :
        List (TimedSymbol × SymWord)),
    row.1.word = row.2

/-! ## The assembler -/

/-- 30_encoding.md R84, R85, with R73's field of WRMSG's byte: an operand that does not fit its field, or
a text longer than `MSG_MAX`, is refused, and one that fits gives its
command with the operand unchanged: nothing is truncated. -/
def Obligations.OperandsAreNeverTruncated : Prop :=
  (∀ i : Instr, i.stmt.assemble = .ok [i]) ∧
  (∀ index byte, 255 < index ∨ 255 < byte →
    (Asm.Stmt.wrmsg index byte).assemble = .error .operandDoesNotFit) ∧
  (∀ len, 511 < len → (Asm.Stmt.setlen len).assemble = .error .operandDoesNotFit) ∧
  (∀ ms, 268435455 < ms → (Asm.Stmt.setditcw ms).assemble = .error .operandDoesNotFit ∧
    (Asm.Stmt.setditqrss ms).assemble = .error .operandDoesNotFit) ∧
  (∀ mode, 1 < mode → (Asm.Stmt.start mode).assemble = .error .operandDoesNotFit) ∧
  ∀ text, Config.msgMax < text.length →
    (Asm.Stmt.loadmsg text).assemble = .error .operandDoesNotFit

/-- 30_encoding.md R85: the commands LOADMSG expands to, executed one after another while IDLE, leave
exactly the text as the written message, and change nothing else. -/
def Obligations.LoadmsgLoadsTheText : Prop :=
  ∀ (text : List Byte) (s : State), text.length ≤ Config.msgMax → s.phase = .idle →
    ∃ is t, (Asm.Stmt.loadmsg text).assemble = .ok is ∧ execAll is s = .next t ∧
      t = { s with msg := t.msg, len := BitVec.ofNat 9 text.length } ∧
      message t = text ∧ messageWritten t ∧
      ∀ a, text.length ≤ a → Memory.read t.msg a = Memory.read s.msg a

/-! ## The output ports -/

/-- 10_state.md R21, R31-R34: every output shows its state element, the two error fields by their codes,
and `sym_word` is `SEQ[P]` while `sym_valid` is 1. 60_exceptions.md R222: a consumer reads
`EncodingFailed` exactly when the message failed on an unsupported byte; under the skip policy no edge
brings that about, for each choice of the block. -/
def Obligations.OutputsShowTheState : Prop :=
  (∀ (rst : Bool) (s : State),
    (outputs rst s).cmdReady = !rst ∧
    (outputs rst s).symValid = s.valid ∧
    ((outputs rst s).busy = true ↔ s.phase = .run) ∧
    (outputs rst s).done = s.done ∧
    (outputs rst s).encErr = (match s.encErr with
      | .noError => 0
      | .unsupportedChar => 1
      | .invalidDit => 2) ∧
    (outputs rst s).errIndex = s.errIndex ∧
    (outputs rst s).errByte = s.errByte ∧
    (outputs rst s).cmdErr = (match s.cmdErr with
      | .noError => 0
      | .illegal => 1
      | .busy => 2
      | .range => 3) ∧
    (∀ L sym, s.valid = true → seq Config.params s = .ok L → L[s.p.toNat]? = some sym →
      (outputs rst s).symWord = sym.word) ∧
    (encodingFailed (outputs rst s) = true ↔ s.done = true ∧ s.encErr = .unsupportedChar)) ∧
  ∀ (par : Config.Params) (choice : Choice) (s t : State), par.skipUnsupported = true →
    s.encErr ≠ .unsupportedChar → edgeWith par choice s = .next t → t.encErr ≠ .unsupportedChar
end

