-- ==== Sys2Proof/Laws/State.lean ====
section
/-! SUPPORT. For each named update of the state, what each field is after it. -/

namespace Sys2Proof.Machine

/-! ## reject -/

@[simp] theorem reject_msg (c : CmdErr) (s : State) : (reject c s).msg = s.msg := rfl
@[simp] theorem reject_len (c : CmdErr) (s : State) : (reject c s).len = s.len := rfl
@[simp] theorem reject_ditCw (c : CmdErr) (s : State) : (reject c s).ditCw = s.ditCw := rfl
@[simp] theorem reject_ditQrss (c : CmdErr) (s : State) : (reject c s).ditQrss = s.ditQrss := rfl
@[simp] theorem reject_phase (c : CmdErr) (s : State) : (reject c s).phase = s.phase := rfl
@[simp] theorem reject_modeL (c : CmdErr) (s : State) : (reject c s).modeL = s.modeL := rfl
@[simp] theorem reject_ditL (c : CmdErr) (s : State) : (reject c s).ditL = s.ditL := rfl
@[simp] theorem reject_p (c : CmdErr) (s : State) : (reject c s).p = s.p := rfl
@[simp] theorem reject_valid (c : CmdErr) (s : State) : (reject c s).valid = s.valid := rfl
@[simp] theorem reject_done (c : CmdErr) (s : State) : (reject c s).done = s.done := rfl
@[simp] theorem reject_encErr (c : CmdErr) (s : State) : (reject c s).encErr = s.encErr := rfl
@[simp] theorem reject_errIndex (c : CmdErr) (s : State) : (reject c s).errIndex = s.errIndex := rfl
@[simp] theorem reject_errByte (c : CmdErr) (s : State) : (reject c s).errByte = s.errByte := rfl
@[simp] theorem reject_cmdErr (c : CmdErr) (s : State) : (reject c s).cmdErr = c := rfl
@[simp] theorem reject_waited (c : CmdErr) (s : State) : (reject c s).waited = s.waited := rfl
@[simp] theorem reject_draws (c : CmdErr) (s : State) : (reject c s).draws = s.draws := rfl
@[simp] theorem reject_inputs (c : CmdErr) (s : State) : (reject c s).inputs = s.inputs := rfl
@[simp] theorem reject_taken (c : CmdErr) (s : State) : (reject c s).taken = s.taken := rfl

/-! ## consumeInput -/

@[simp] theorem consumeInput_msg (s : State) : (consumeInput s).msg = s.msg := rfl
@[simp] theorem consumeInput_len (s : State) : (consumeInput s).len = s.len := rfl
@[simp] theorem consumeInput_ditCw (s : State) : (consumeInput s).ditCw = s.ditCw := rfl
@[simp] theorem consumeInput_ditQrss (s : State) : (consumeInput s).ditQrss = s.ditQrss := rfl
@[simp] theorem consumeInput_phase (s : State) : (consumeInput s).phase = s.phase := rfl
@[simp] theorem consumeInput_modeL (s : State) : (consumeInput s).modeL = s.modeL := rfl
@[simp] theorem consumeInput_ditL (s : State) : (consumeInput s).ditL = s.ditL := rfl
@[simp] theorem consumeInput_p (s : State) : (consumeInput s).p = s.p := rfl
@[simp] theorem consumeInput_valid (s : State) : (consumeInput s).valid = s.valid := rfl
@[simp] theorem consumeInput_done (s : State) : (consumeInput s).done = s.done := rfl
@[simp] theorem consumeInput_encErr (s : State) : (consumeInput s).encErr = s.encErr := rfl
@[simp] theorem consumeInput_errIndex (s : State) : (consumeInput s).errIndex = s.errIndex := rfl
@[simp] theorem consumeInput_errByte (s : State) : (consumeInput s).errByte = s.errByte := rfl
@[simp] theorem consumeInput_cmdErr (s : State) : (consumeInput s).cmdErr = s.cmdErr := rfl
@[simp] theorem consumeInput_waited (s : State) : (consumeInput s).waited = s.waited := rfl
@[simp] theorem consumeInput_draws (s : State) : (consumeInput s).draws = s.draws + 1 := rfl
@[simp] theorem consumeInput_inputs (s : State) : (consumeInput s).inputs = s.inputs.tail := rfl
@[simp] theorem consumeInput_taken (s : State) : (consumeInput s).taken = s.taken := rfl

/-! ## beginRun -/

@[simp] theorem beginRun_msg (m : KeyingMode) (s : State) : (beginRun m s).msg = s.msg := rfl
@[simp] theorem beginRun_len (m : KeyingMode) (s : State) : (beginRun m s).len = s.len := rfl
@[simp] theorem beginRun_ditCw (m : KeyingMode) (s : State) : (beginRun m s).ditCw = s.ditCw := rfl
@[simp] theorem beginRun_ditQrss (m : KeyingMode) (s : State) : (beginRun m s).ditQrss = s.ditQrss := rfl
@[simp] theorem beginRun_phase (m : KeyingMode) (s : State) : (beginRun m s).phase = .run := rfl
@[simp] theorem beginRun_modeL (m : KeyingMode) (s : State) : (beginRun m s).modeL = m := rfl
@[simp] theorem beginRun_ditL (m : KeyingMode) (s : State) : (beginRun m s).ditL = selectedDit m s := rfl
@[simp] theorem beginRun_p (m : KeyingMode) (s : State) : (beginRun m s).p = 0 := rfl
@[simp] theorem beginRun_valid (m : KeyingMode) (s : State) : (beginRun m s).valid = false := rfl
@[simp] theorem beginRun_done (m : KeyingMode) (s : State) : (beginRun m s).done = false := rfl
@[simp] theorem beginRun_encErr (m : KeyingMode) (s : State) : (beginRun m s).encErr = .noError := rfl
@[simp] theorem beginRun_errIndex (m : KeyingMode) (s : State) : (beginRun m s).errIndex = 0 := rfl
@[simp] theorem beginRun_errByte (m : KeyingMode) (s : State) : (beginRun m s).errByte = 0 := rfl
@[simp] theorem beginRun_cmdErr (m : KeyingMode) (s : State) : (beginRun m s).cmdErr = s.cmdErr := rfl
@[simp] theorem beginRun_waited (m : KeyingMode) (s : State) : (beginRun m s).waited = s.waited := rfl
@[simp] theorem beginRun_draws (m : KeyingMode) (s : State) : (beginRun m s).draws = s.draws := rfl
@[simp] theorem beginRun_inputs (m : KeyingMode) (s : State) : (beginRun m s).inputs = s.inputs := rfl
@[simp] theorem beginRun_taken (m : KeyingMode) (s : State) : (beginRun m s).taken = [] := rfl

/-! ## transferSymbol -/

@[simp] theorem transferSymbol_msg (t : TimedSymbol) (v : Bool) (pre s : State) : (transferSymbol t v pre s).msg = s.msg := rfl
@[simp] theorem transferSymbol_len (t : TimedSymbol) (v : Bool) (pre s : State) : (transferSymbol t v pre s).len = s.len := rfl
@[simp] theorem transferSymbol_ditCw (t : TimedSymbol) (v : Bool) (pre s : State) : (transferSymbol t v pre s).ditCw = s.ditCw := rfl
@[simp] theorem transferSymbol_ditQrss (t : TimedSymbol) (v : Bool) (pre s : State) : (transferSymbol t v pre s).ditQrss = s.ditQrss := rfl
@[simp] theorem transferSymbol_phase (t : TimedSymbol) (v : Bool) (pre s : State) : (transferSymbol t v pre s).phase = s.phase := rfl
@[simp] theorem transferSymbol_modeL (t : TimedSymbol) (v : Bool) (pre s : State) : (transferSymbol t v pre s).modeL = s.modeL := rfl
@[simp] theorem transferSymbol_ditL (t : TimedSymbol) (v : Bool) (pre s : State) : (transferSymbol t v pre s).ditL = s.ditL := rfl
@[simp] theorem transferSymbol_p (t : TimedSymbol) (v : Bool) (pre s : State) : (transferSymbol t v pre s).p = pre.p + 1 := rfl
@[simp] theorem transferSymbol_valid (t : TimedSymbol) (v : Bool) (pre s : State) : (transferSymbol t v pre s).valid = v := rfl
@[simp] theorem transferSymbol_done (t : TimedSymbol) (v : Bool) (pre s : State) : (transferSymbol t v pre s).done = s.done := rfl
@[simp] theorem transferSymbol_encErr (t : TimedSymbol) (v : Bool) (pre s : State) : (transferSymbol t v pre s).encErr = s.encErr := rfl
@[simp] theorem transferSymbol_errIndex (t : TimedSymbol) (v : Bool) (pre s : State) : (transferSymbol t v pre s).errIndex = s.errIndex := rfl
@[simp] theorem transferSymbol_errByte (t : TimedSymbol) (v : Bool) (pre s : State) : (transferSymbol t v pre s).errByte = s.errByte := rfl
@[simp] theorem transferSymbol_cmdErr (t : TimedSymbol) (v : Bool) (pre s : State) : (transferSymbol t v pre s).cmdErr = s.cmdErr := rfl
@[simp] theorem transferSymbol_waited (t : TimedSymbol) (v : Bool) (pre s : State) : (transferSymbol t v pre s).waited = 0 := rfl
@[simp] theorem transferSymbol_draws (t : TimedSymbol) (v : Bool) (pre s : State) : (transferSymbol t v pre s).draws = s.draws := rfl
@[simp] theorem transferSymbol_inputs (t : TimedSymbol) (v : Bool) (pre s : State) : (transferSymbol t v pre s).inputs = s.inputs := rfl
@[simp] theorem transferSymbol_taken (t : TimedSymbol) (v : Bool) (pre s : State) : (transferSymbol t v pre s).taken = s.taken ++ [t.word] := rfl

/-! ## present -/

@[simp] theorem present_msg (s : State) : (present s).msg = s.msg := rfl
@[simp] theorem present_len (s : State) : (present s).len = s.len := rfl
@[simp] theorem present_ditCw (s : State) : (present s).ditCw = s.ditCw := rfl
@[simp] theorem present_ditQrss (s : State) : (present s).ditQrss = s.ditQrss := rfl
@[simp] theorem present_phase (s : State) : (present s).phase = s.phase := rfl
@[simp] theorem present_modeL (s : State) : (present s).modeL = s.modeL := rfl
@[simp] theorem present_ditL (s : State) : (present s).ditL = s.ditL := rfl
@[simp] theorem present_p (s : State) : (present s).p = s.p := rfl
@[simp] theorem present_valid (s : State) : (present s).valid = true := rfl
@[simp] theorem present_done (s : State) : (present s).done = s.done := rfl
@[simp] theorem present_encErr (s : State) : (present s).encErr = s.encErr := rfl
@[simp] theorem present_errIndex (s : State) : (present s).errIndex = s.errIndex := rfl
@[simp] theorem present_errByte (s : State) : (present s).errByte = s.errByte := rfl
@[simp] theorem present_cmdErr (s : State) : (present s).cmdErr = s.cmdErr := rfl
@[simp] theorem present_waited (s : State) : (present s).waited = 0 := rfl
@[simp] theorem present_draws (s : State) : (present s).draws = s.draws := rfl
@[simp] theorem present_inputs (s : State) : (present s).inputs = s.inputs := rfl
@[simp] theorem present_taken (s : State) : (present s).taken = s.taken := rfl

/-! ## stall -/

@[simp] theorem stall_msg (pre s : State) : (stall pre s).msg = s.msg := rfl
@[simp] theorem stall_len (pre s : State) : (stall pre s).len = s.len := rfl
@[simp] theorem stall_ditCw (pre s : State) : (stall pre s).ditCw = s.ditCw := rfl
@[simp] theorem stall_ditQrss (pre s : State) : (stall pre s).ditQrss = s.ditQrss := rfl
@[simp] theorem stall_phase (pre s : State) : (stall pre s).phase = s.phase := rfl
@[simp] theorem stall_modeL (pre s : State) : (stall pre s).modeL = s.modeL := rfl
@[simp] theorem stall_ditL (pre s : State) : (stall pre s).ditL = s.ditL := rfl
@[simp] theorem stall_p (pre s : State) : (stall pre s).p = s.p := rfl
@[simp] theorem stall_valid (pre s : State) : (stall pre s).valid = s.valid := rfl
@[simp] theorem stall_done (pre s : State) : (stall pre s).done = s.done := rfl
@[simp] theorem stall_encErr (pre s : State) : (stall pre s).encErr = s.encErr := rfl
@[simp] theorem stall_errIndex (pre s : State) : (stall pre s).errIndex = s.errIndex := rfl
@[simp] theorem stall_errByte (pre s : State) : (stall pre s).errByte = s.errByte := rfl
@[simp] theorem stall_cmdErr (pre s : State) : (stall pre s).cmdErr = s.cmdErr := rfl
@[simp] theorem stall_waited (pre s : State) : (stall pre s).waited = pre.waited + 1 := rfl
@[simp] theorem stall_draws (pre s : State) : (stall pre s).draws = s.draws := rfl
@[simp] theorem stall_inputs (pre s : State) : (stall pre s).inputs = s.inputs := rfl
@[simp] theorem stall_taken (pre s : State) : (stall pre s).taken = s.taken := rfl

/-! ## quiet -/

@[simp] theorem quiet_msg (s : State) : (quiet s).msg = s.msg := rfl
@[simp] theorem quiet_len (s : State) : (quiet s).len = s.len := rfl
@[simp] theorem quiet_ditCw (s : State) : (quiet s).ditCw = s.ditCw := rfl
@[simp] theorem quiet_ditQrss (s : State) : (quiet s).ditQrss = s.ditQrss := rfl
@[simp] theorem quiet_phase (s : State) : (quiet s).phase = s.phase := rfl
@[simp] theorem quiet_modeL (s : State) : (quiet s).modeL = s.modeL := rfl
@[simp] theorem quiet_ditL (s : State) : (quiet s).ditL = s.ditL := rfl
@[simp] theorem quiet_p (s : State) : (quiet s).p = s.p := rfl
@[simp] theorem quiet_valid (s : State) : (quiet s).valid = s.valid := rfl
@[simp] theorem quiet_done (s : State) : (quiet s).done = s.done := rfl
@[simp] theorem quiet_encErr (s : State) : (quiet s).encErr = s.encErr := rfl
@[simp] theorem quiet_errIndex (s : State) : (quiet s).errIndex = s.errIndex := rfl
@[simp] theorem quiet_errByte (s : State) : (quiet s).errByte = s.errByte := rfl
@[simp] theorem quiet_cmdErr (s : State) : (quiet s).cmdErr = s.cmdErr := rfl
@[simp] theorem quiet_waited (s : State) : (quiet s).waited = 0 := rfl
@[simp] theorem quiet_draws (s : State) : (quiet s).draws = s.draws := rfl
@[simp] theorem quiet_inputs (s : State) : (quiet s).inputs = s.inputs := rfl
@[simp] theorem quiet_taken (s : State) : (quiet s).taken = s.taken := rfl

/-! ## finish: by the result, the three fields it reports; the others whatever the result -/

@[simp] theorem finish_msg (par : Config.Params) (pre s : State) : (finish par pre s).msg = s.msg := by
  unfold finish reportResult; split <;> rfl
@[simp] theorem finish_len (par : Config.Params) (pre s : State) : (finish par pre s).len = s.len := by
  unfold finish reportResult; split <;> rfl
@[simp] theorem finish_ditCw (par : Config.Params) (pre s : State) : (finish par pre s).ditCw = s.ditCw := by
  unfold finish reportResult; split <;> rfl
@[simp] theorem finish_ditQrss (par : Config.Params) (pre s : State) : (finish par pre s).ditQrss = s.ditQrss := by
  unfold finish reportResult; split <;> rfl
@[simp] theorem finish_phase (par : Config.Params) (pre s : State) : (finish par pre s).phase = .idle := by
  unfold finish reportResult; split <;> rfl
@[simp] theorem finish_modeL (par : Config.Params) (pre s : State) : (finish par pre s).modeL = s.modeL := by
  unfold finish reportResult; split <;> rfl
@[simp] theorem finish_ditL (par : Config.Params) (pre s : State) : (finish par pre s).ditL = s.ditL := by
  unfold finish reportResult; split <;> rfl
@[simp] theorem finish_p (par : Config.Params) (pre s : State) : (finish par pre s).p = s.p := by
  unfold finish reportResult; split <;> rfl
@[simp] theorem finish_valid (par : Config.Params) (pre s : State) : (finish par pre s).valid = s.valid := by
  unfold finish reportResult; split <;> rfl
@[simp] theorem finish_done (par : Config.Params) (pre s : State) : (finish par pre s).done = true := by
  unfold finish reportResult; split <;> rfl
@[simp] theorem finish_cmdErr (par : Config.Params) (pre s : State) : (finish par pre s).cmdErr = s.cmdErr := by
  unfold finish reportResult; split <;> rfl
@[simp] theorem finish_waited (par : Config.Params) (pre s : State) : (finish par pre s).waited = 0 := by
  unfold finish reportResult; split <;> rfl
@[simp] theorem finish_draws (par : Config.Params) (pre s : State) : (finish par pre s).draws = s.draws := by
  unfold finish reportResult; split <;> rfl
@[simp] theorem finish_inputs (par : Config.Params) (pre s : State) : (finish par pre s).inputs = s.inputs := by
  unfold finish reportResult; split <;> rfl
@[simp] theorem finish_taken (par : Config.Params) (pre s : State) : (finish par pre s).taken = s.taken := by
  unfold finish reportResult; split <;> rfl

end Sys2Proof.Machine
end

