-- ==== Sys2Proof/Laws/Commands.lean ====
section
/-! SUPPORT. What a command can do: one lemma per shared operation, and the inversion of `exec`. -/

namespace Sys2Proof.Machine

@[simp] theorem andThen_of_next (s : State) (f : State → Result) : andThen (.next s) f = f s := rfl

@[simp] theorem andThen_of_fault (e : Fault) (f : State → Result) :
    andThen (.fault e) f = .fault e := rfl

@[simp] theorem andThen_of_refused (e : Refusal) (f : State → Result) :
    andThen (.refused e) f = .refused e := rfl

/-- A next state came from a next state. -/
theorem andThen_next {r : Result} {f : State → Result} {t : State} (h : andThen r f = .next t) :
    ∃ u, r = .next u ∧ f u = .next t := by
  cases r with
  | next u => exact ⟨u, rfl, h⟩
  | fault e => cases h
  | refused e => cases h

theorem whenIdle_run {s : State} (h : s.phase = .run) (r : Result) :
    whenIdle s r = .next (reject .busy s) := by simp [whenIdle, h]

theorem whenIdle_idle {s : State} (h : s.phase = .idle) (r : Result) : whenIdle s r = r := by
  simp [whenIdle, h]

/-- While RUN a command other than NOP and CLRERR is rejected BUSY (43_commands.md R183). -/
theorem exec_run {s : State} (h : s.phase = .run) (i : Instr) :
    exec i s = .next (match i with
      | .nop => s
      | .clrerr => { s with cmdErr := .noError }
      | _ => reject .busy s) := by
  cases i <;> simp [exec, execNop, execClrerr, execWrmsg, execSetlen, execSetditcw, execSetditqrss,
    execStart, whenIdle_run h]

/-- Everything a command can do while IDLE (43_commands.md R184-R190). -/
theorem exec_idle {s : State} (h : s.phase = .idle) (i : Instr) :
    exec i s = match i with
      | .nop => .next s
      | .wrmsg index byte =>
        if indexInRange index then .next { s with msg := Memory.write s.msg index.toNat byte }
        else .next (reject .range s)
      | .setlen len => if lenInRange len then .next { s with len := len } else .next (reject .range s)
      | .setditcw dit => .next { s with ditCw := dit }
      | .setditqrss dit => .next { s with ditQrss := dit }
      | .start mode => match firstUnwritten s with
        | some index => .refused (.unwrittenMessageByte index)
        | none => .next (beginRun mode s)
      | .clrerr => .next { s with cmdErr := .noError } := by
  cases i
  case start mode =>
    cases hf : firstUnwritten s <;> simp [exec, execStart, whenIdle_idle h, hf]
  all_goals
    simp [exec, execNop, execClrerr, execWrmsg, execSetlen, execSetditcw, execSetditqrss,
      whenIdle_idle h, whenInRange]

/-- No command faults (43_commands.md R181). -/
theorem exec_ne_fault (i : Instr) (s : State) (f : Fault) : exec i s ≠ .fault f := by
  cases hp : s.phase with
  | run => simp [exec_run hp]
  | idle =>
    rw [exec_idle hp]
    cases i <;> simp only [ne_eq, reduceCtorEq, not_false_eq_true] <;> split <;> simp

/-- Only START is refused, and only over an unwritten byte (10_state.md R36). -/
theorem exec_refused {i : Instr} {s : State} {r : Refusal} (h : exec i s = .refused r) :
    s.phase = .idle ∧ ∃ mode index, i = .start mode ∧ firstUnwritten s = some index ∧
      r = .unwrittenMessageByte index := by
  cases hp : s.phase with
  | run => simp [exec_run hp] at h
  | idle =>
    rw [exec_idle hp] at h
    cases i <;> simp only [reduceCtorEq] at h
    · split at h <;> cases h
    · split at h <;> cases h
    · split at h
      · cases h; exact ⟨rfl, _, _, rfl, ‹_›, rfl⟩
      · cases h

/-- An index of 8 bits is always in range (20_memory.md R51). -/
@[simp] theorem indexInRange_true (index : BitVec 8) : indexInRange index = true := by
  simp [indexInRange, Config.msgMax, index.isLt]

end Sys2Proof.Machine
end

