-- ==== Sys2Proof/Laws/Decode.lean ====
section
/-! SUPPORT. Small laws of the command word's fields. -/

namespace Sys2Proof

/-- A field of a word as a number. -/
theorem field_toNat (w : Word) (lo width : Nat) :
    (field w lo width).toNat = w.toNat / 2 ^ lo % 2 ^ width := by
  simp [field, Nat.shiftRight_eq_div_pow]

/-- A field is zero exactly when its number is. -/
theorem field_eq_zero_iff (w : Word) (lo width : Nat) :
    field w lo width = 0 ↔ w.toNat / 2 ^ lo % 2 ^ width = 0 := by
  rw [← BitVec.toNat_inj, field_toNat]; simp

/-- A concatenation as a number. -/
theorem append_toNat {n k : Nat} (x : BitVec n) (y : BitVec k) :
    (x ++ y).toNat = x.toNat * 2 ^ k + y.toNat := by
  rw [BitVec.toNat_append, ← Nat.shiftLeft_add_eq_or_of_lt y.isLt, Nat.shiftLeft_eq]

/-! The encoded commands as numbers (30_encoding.md R71, R72). -/

theorem encode_wrmsg_toNat (index : BitVec 8) (byte : Byte) :
    (encode (.wrmsg index byte)).toNat = 0x10000000 + index.toNat * 256 + byte.toNat := by
  simp only [encode, append_toNat]; norm_num; omega

theorem encode_setlen_toNat (len : BitVec 9) :
    (encode (.setlen len)).toNat = 0x20000000 + len.toNat := by
  simp only [encode, append_toNat]; norm_num

theorem encode_setditcw_toNat (dit : Dit) :
    (encode (.setditcw dit)).toNat = 0x30000000 + dit.toNat := by
  simp only [encode, append_toNat]; norm_num

theorem encode_setditqrss_toNat (dit : Dit) :
    (encode (.setditqrss dit)).toNat = 0x40000000 + dit.toNat := by
  simp only [encode, append_toNat]; norm_num

/-- The opcode field as a number (30_encoding.md R70). -/
theorem opField_toNat (w : Word) : (opField w).toNat = w.toNat / 2 ^ 28 := by
  have h := w.isLt
  rw [opField, field_toNat]
  omega

/-- The word with ones at the bits `lo` to `lo + width - 1` and zeros elsewhere. -/
def fieldMask (lo width : Nat) : Word := (BitVec.allOnes width).setWidth 32 <<< lo

/-- Masking a word leaves one field, in its place. -/
theorem and_fieldMask (w : Word) (lo width : Nat) :
    w &&& fieldMask lo width = (field w lo width).setWidth 32 <<< lo := by
  apply BitVec.eq_of_getLsbD_eq
  intro i hi
  simp only [fieldMask, field, BitVec.getLsbD_and, BitVec.getLsbD_shiftLeft, BitVec.getLsbD_setWidth,
    BitVec.getLsbD_allOnes, BitVec.getLsbD_extractLsb']
  by_cases h : lo ≤ i
  · have hsub : lo + (i - lo) = i := by omega
    simp [hsub, hi, show ¬i < lo by omega, show i - lo < 32 by omega, Bool.and_comm]
  · simp [show i < lo by omega]

/-- A field moved to its place is determined by the word there. -/
theorem shifted_field_inj {lo width : Nat} (h : lo + width ≤ 32) {v v' : BitVec width}
    (he : v.setWidth 32 <<< lo = v'.setWidth 32 <<< lo) : v = v' := by
  have hv := v.isLt
  have hv' := v'.isLt
  have hp : 2 ^ lo * 2 ^ width ≤ 2 ^ 32 := by
    rw [← pow_add]; exact Nat.pow_le_pow_right (by decide) h
  have hpos : 0 < 2 ^ lo := by positivity
  rw [← BitVec.toNat_inj] at he ⊢
  simp only [BitVec.toNat_shiftLeft, BitVec.toNat_setWidth, Nat.shiftLeft_eq] at he
  rw [Nat.mod_eq_of_lt (a := v.toNat) (by nlinarith), Nat.mod_eq_of_lt (by nlinarith),
    Nat.mod_eq_of_lt (a := v'.toNat) (by nlinarith), Nat.mod_eq_of_lt (by nlinarith)] at he
  exact Nat.eq_of_mul_eq_mul_right hpos he

/-- A masked word has a value exactly when the field has it. -/
theorem and_fieldMask_eq_iff (w : Word) {lo width : Nat} (h : lo + width ≤ 32) (v : BitVec width) :
    w &&& fieldMask lo width = v.setWidth 32 <<< lo ↔ field w lo width = v := by
  rw [and_fieldMask]
  exact ⟨shifted_field_inj h, fun he => he ▸ rfl⟩

@[simp] theorem modeOfBit_bit (m : KeyingMode) : modeOfBit m.bit = m := by cases m <;> rfl

theorem bit_modeOfBit (b : BitVec 1) : (modeOfBit b).bit = b := by
  revert b; decide

/-- The must-be-zero check lets an instruction through exactly when the field is zero. -/
theorem requireZero_eq_ok_iff {n : Nat} (rz : BitVec n) (op : BitVec 4) (i j : Instr) :
    requireZero rz op i = .ok j ↔ rz = 0 ∧ i = j := by
  unfold requireZero; split <;> simp_all

end Sys2Proof
end

