-- ==== Sys2Proof/Laws/Encoder.lean ====
section
/-! SUPPORT. The small laws of the table, of the kinds of a message and of `Key`. -/

namespace Sys2Proof.Machine

/-- No entry has more than 6 elements (40_morse_table.md R108). -/
theorem elementCount_rom_le_six (b : Byte) : entryCount (rom b) ≤ 6 := by
  have h : ∀ row ∈ romRows, entryCount row.2 ≤ 6 := List.all_iff_forall_prop.mp (by decide +kernel)
  unfold rom
  cases hf : romRows.find? fun row => row.1 == b with
  | none => simp [entryCount]
  | some row => simpa [hf] using h row (List.mem_of_find?_eq_some hf)

theorem elementCount_le_six (cf : Bool) (b : Byte) : elementCount cf b ≤ 6 :=
  elementCount_rom_le_six _

@[simp] theorem pattern_length (cf : Bool) (b : Byte) : (pattern cf b).length = elementCount cf b := by
  simp [pattern]

/-- Every element of a pattern is a Dot or a Dash. -/
theorem isElement_of_mem_pattern {cf : Bool} {b : Byte} {k : MorseSymbol} (h : k ∈ pattern cf b) :
    isElement k = true := by
  simp only [pattern, List.mem_map] at h
  obtain ⟨j, -, rfl⟩ := h
  split <;> rfl

/-- Elements with a gap between each two: one gap less than elements. -/
theorem intersperse_length {α : Type} (g : α) :
    ∀ l : List α, (l.intersperse g).length = 2 * l.length - 1
  | [] => rfl
  | [_] => rfl
  | _ :: b :: l => by
    simp only [List.intersperse, List.length_cons, intersperse_length g (b :: l)]; omega

@[simp] theorem kinds_nil (cf : Bool) : kinds cf [] = [] := rfl

theorem kinds_cons (cf : Bool) (c : Byte) (rest : List Byte) :
    kinds cf (c :: rest) = characterKinds cf c rest ++ kinds cf rest := rfl

/-- The space's contribution (41_message_encoder.md R136). -/
theorem characterKinds_space {cf : Bool} {c : Byte} (rest : List Byte) (h : elementCount cf c = 0) :
    characterKinds cf c rest = [.wordGap] := by simp [characterKinds, h]

/-- Any other character's contribution (41_message_encoder.md R137-R139). -/
theorem characterKinds_element {cf : Bool} {c : Byte} (rest : List Byte) (h : elementCount cf c ≠ 0) :
    characterKinds cf c rest =
      (pattern cf c).intersperse .intraCharacterGap ++ gapBefore cf rest := by simp [characterKinds, h]

theorem gapBefore_cases (cf : Bool) (rest : List Byte) :
    gapBefore cf rest = [] ∨ gapBefore cf rest = [.interCharacterGap] := by
  cases rest with
  | nil => exact .inl rfl
  | cons c r => simp only [gapBefore]; split <;> simp

/-- Which byte the scan for an unsupported one finds, counting from `n` (41_message_encoder.md R134). -/
theorem firstUnsupported_eq_some_iff (cf : Bool) : ∀ (msg : List Byte) (n k : Nat) (b : Byte),
    firstUnsupported cf msg n = some (k, b) ↔ n ≤ k ∧ msg[k - n]? = some b ∧
      supported cf b = false ∧ ∀ j c, j < k - n → msg[j]? = some c → supported cf c = true
  | [], n, k, b => by simp [firstUnsupported]
  | x :: msg, n, k, b => by
    unfold firstUnsupported
    split
    · rename_i hx
      rw [firstUnsupported_eq_some_iff cf msg (n + 1) k b]
      constructor
      · rintro ⟨h1, h2, h3, h4⟩
        refine ⟨by omega, ?_, h3, fun j c hj hc => ?_⟩
        · rw [show k - n = (k - (n + 1)) + 1 by omega]; simpa using h2
        · cases j with
          | zero => simp at hc; exact hc ▸ hx
          | succ j => exact h4 j c (by omega) (by simpa using hc)
      · rintro ⟨h1, h2, h3, h4⟩
        have hkn : k ≠ n := by
          rintro rfl; simp at h2; rw [h2] at hx; simp [hx] at h3
        refine ⟨by omega, ?_, h3, fun j c hj hc => h4 (j + 1) c (by omega) (by simpa using hc)⟩
        rw [show k - n = (k - (n + 1)) + 1 by omega] at h2; simpa using h2
    · rename_i hx
      simp only [Option.some.injEq, Prod.mk.injEq]
      constructor
      · rintro ⟨rfl, rfl⟩; simp [hx]
      · rintro ⟨h1, h2, h3, h4⟩
        by_cases hk : k = n
        · subst hk; simp at h2; exact ⟨rfl, h2⟩
        · exact absurd (h4 0 x (by omega) (by simp)) hx

@[simp] theorem key_length (ks : List MorseSymbol) (m : KeyingMode) (d : Dit) :
    (key ks m d).length = ks.length := by simp [key]

/-- The symbol at a position of `Key` (42_keying.md R164). -/
theorem key_getElem (ks : List MorseSymbol) (m : KeyingMode) (d : Dit) (i : Nat)
    (h : i < (key ks m d).length) :
    (key ks m d)[i] =
      timedSymbol (ks[i]'(by simpa using h)) m d (decide (i + 1 = ks.length)) := by simp [key]

/-- A result that is not an error is `Key` of the kinds of the kept characters
(41_message_encoder.md R131). -/
theorem encodeMessage_eq_ok {par : Config.Params} {msg : List Byte} {m : KeyingMode} {d : Dit}
    {L : List TimedSymbol} (h : encodeMessage par msg m d = .ok L) :
    d ≠ 0 ∧ abortingByte par msg = none ∧
      L = key (kinds par.caseFold (keptCharacters par.caseFold msg)) m d := by
  unfold encodeMessage at h
  split at h
  · cases h
  · split at h
    · cases h
    · rename_i hd _ ha; cases h; exact ⟨hd, ha, rfl⟩

/-- An error is the dit's or an unsupported byte's (41_message_encoder.md R131). -/
theorem encodeMessage_eq_err {par : Config.Params} {msg : List Byte} {m : KeyingMode} {d : Dit}
    {e : EncodeError} (h : encodeMessage par msg m d = .err e) :
    (d = 0 ∧ e = .invalidDit) ∨
      (d ≠ 0 ∧ ∃ k b, abortingByte par msg = some (k, b) ∧ e = .unsupportedCharacter k b) := by
  unfold encodeMessage at h
  split at h
  · cases h; exact .inl ⟨‹_›, rfl⟩
  · split at h
    · rename_i hd _ k b ha; cases h; exact .inr ⟨hd, k, b, ha, rfl⟩
    · cases h

/-- The symbol word as a number: the fields at their places (30_encoding.md R80). -/
theorem word_toNat (x : TimedSymbol) :
    x.word.toNat = x.durMs.toNat * 512 + x.last.toNat * 256 + x.tone.toNat * 128 +
      x.carrier.toNat * 64 + x.units.toNat * 8 + (kindCode x.kind).toNat := by
  have append : ∀ {n k : Nat} (a : BitVec n) (b : BitVec k),
      (a ++ b).toNat = a.toNat * 2 ^ k + b.toNat := fun a b => by
    rw [BitVec.toNat_append, ← Nat.shiftLeft_add_eq_or_of_lt b.isLt, Nat.shiftLeft_eq]
  simp only [TimedSymbol.word, append, BitVec.toNat_ofBool]
  ring

/-- `SEQ` reads the message, the latched mode and the latched dit, and nothing else of the state
(41_message_encoder.md R141). -/
theorem seq_congr {par : Config.Params} {s t : State} (h₁ : t.msg = s.msg) (h₂ : t.len = s.len)
    (h₃ : t.modeL = s.modeL) (h₄ : t.ditL = s.ditL) : seq par t = seq par s := by
  simp [seq, message, h₁, h₂, h₃, h₄]

theorem symbolAtP_eq_some_iff {par : Config.Params} {s : State} {t : TimedSymbol} :
    symbolAtP par s = some t ↔ ∃ L, seq par s = .ok L ∧ L[s.p.toNat]? = some t := by
  unfold symbolAtP
  cases h : seq par s <;> simp

end Sys2Proof.Machine
end

