-- ==== Sys2Proof/Laws/Edge.lean ====
section
/-! SUPPORT. What a clock edge can do, said once (43_commands.md R180). -/

namespace Sys2Proof.Machine

/-- The step is the edge with this hardware's parameters and the drawn choice. -/
theorem step_eq (s : State) : step s = edgeWith Config.params (drawnChoice s.draws) s := rfl

theorem edgeWith_reset {par : Config.Params} {choice : Choice} {s : State}
    (h : (nextInput s).rst = true) : edgeWith par choice s = .next (resetEdge (consumeInput s)) := by
  simp [edgeWith, h]

theorem edgeWith_noReset {par : Config.Params} {choice : Choice} {s : State}
    (h : (nextInput s).rst = false) :
    edgeWith par choice s = andThen (commandSide (nextInput s) (consumeInput s))
      (symbolSide par choice (nextInput s).symReady (consumeInput s)) := by
  simp [edgeWith, h]

/-- A word that decodes is executed (43_commands.md R181). -/
theorem acceptWord_ok {w : Word} {i : Instr} (h : decode w = .ok i) (s : State) :
    acceptWord w s = exec i s := by simp [acceptWord, h]

/-- A word that does not decode is rejected ILLEGAL (30_encoding.md R75). -/
theorem acceptWord_error {w : Word} {e : DecodeError} (h : decode w = .error e) (s : State) :
    acceptWord w s = .next (reject .illegal s) := by simp [acceptWord, h]

theorem commandSide_ne_fault (input : EdgeInput) (s : State) (f : Fault) :
    commandSide input s ≠ .fault f := by
  unfold commandSide acceptWord
  split
  · split
    · exact exec_ne_fault _ _ _
    · simp
  · simp

/-- Inversion: an edge that answers a next state was a reset, or a command followed by the symbol
side. -/
theorem edgeWith_next {par : Config.Params} {choice : Choice} {s t : State}
    (h : edgeWith par choice s = .next t) :
    ((nextInput s).rst = true ∧ t = resetEdge (consumeInput s)) ∨
      ((nextInput s).rst = false ∧ ∃ u, commandSide (nextInput s) (consumeInput s) = .next u ∧
        symbolSide par choice (nextInput s).symReady (consumeInput s) u = .next t) := by
  cases hr : (nextInput s).rst with
  | true => rw [edgeWith_reset hr] at h; cases h; exact .inl ⟨rfl, rfl⟩
  | false =>
    rw [edgeWith_noReset hr] at h
    exact .inr ⟨rfl, andThen_next h⟩

/-- Inversion: everything the symbol side of an edge can do (43_commands.md R200-R203). -/
theorem symbolSide_next {par : Config.Params} {choice : Choice} {ready : Bool} {pre u t : State}
    (h : symbolSide par choice ready pre u = .next t) :
    (pre.valid = true ∧ ready = true ∧ ∃ sym, symbolAtP par pre = some sym ∧
        t = transferSymbol sym (anotherFollows par pre && choice.follow) pre u) ∨
      (presentEnabled par pre = true ∧ stepDue par choice pre = true ∧ t = present u) ∨
      (finishEnabled par pre = true ∧ stepDue par choice pre = true ∧ t = finish par pre u) ∨
      ((presentEnabled par pre = true ∨ finishEnabled par pre = true) ∧
        stepDue par choice pre = false ∧ t = stall pre u) ∨
      (presentEnabled par pre = false ∧ finishEnabled par pre = false ∧ t = quiet u) := by
  unfold symbolSide transfer at h
  split at h
  · rename_i hv
    simp only [Bool.and_eq_true] at hv
    split at h
    · cases h; exact .inl ⟨hv.1, hv.2, _, ‹_›, rfl⟩
    · cases h
  · split at h
    · rename_i hp
      cases h
      cases hd : stepDue par choice pre <;> simp [hp]
    · rename_i hp
      split at h
      · rename_i hf
        cases h
        cases hd : stepDue par choice pre <;> simp [hf]
      · rename_i hf
        cases h; simp_all

/-- What a command of an edge in RUN leaves (43_commands.md R183, 60_exceptions.md R230). -/
theorem commandSide_run {s : State} (h : s.phase = .run) (input : EdgeInput) :
    ∃ c, commandSide input s = .next (reject c s) := by
  unfold commandSide acceptWord
  split
  · split
    · rw [exec_run h]
      split
      · exact ⟨s.cmdErr, rfl⟩
      · exact ⟨.noError, rfl⟩
      · exact ⟨.busy, rfl⟩
    · exact ⟨.illegal, rfl⟩
  · exact ⟨s.cmdErr, rfl⟩

end Sys2Proof.Machine
end

