-- ==== Sys2Proof/Laws/Memory.lean ====
section
/-! SUPPORT. The laws of the message buffer: reading after writing, and the canonical form. -/

namespace Sys2Proof.Machine

@[simp] theorem Memory.read_nil (a : Nat) : Memory.read [] a = none := rfl

@[simp] theorem Memory.written_nil (a : Nat) : Memory.written [] a = false := rfl

theorem Memory.read_write (m : Memory) (a c : Nat) (b : Byte) :
    Memory.read (Memory.write m a b) c = if c = a then some b else Memory.read m c := by
  induction m with
  | nil => simp [Memory.write, Memory.read, eq_comm]
  | cons cell m ih =>
    obtain ⟨x, v⟩ := cell
    simp only [Memory.write]
    split
    · simp only [Memory.read, eq_comm]
    · split
      · simp only [Memory.read]; subst_vars; split <;> simp_all [eq_comm]
      · simp only [Memory.read, ih]
        split
        · subst_vars; rw [if_neg]; exact fun h => by simp_all
        · rfl

@[simp] theorem Memory.read_write_same (m : Memory) (a : Nat) (b : Byte) :
    Memory.read (Memory.write m a b) a = some b := by simp [Memory.read_write]

theorem Memory.read_write_other (m : Memory) {a c : Nat} (b : Byte) (h : c ≠ a) :
    Memory.read (Memory.write m a b) c = Memory.read m c := by simp [Memory.read_write, h]

theorem Memory.written_write (m : Memory) (a c : Nat) (b : Byte) :
    Memory.written (Memory.write m a b) c = (decide (c = a) || Memory.written m c) := by
  simp only [Memory.written, Memory.read_write]
  split <;> simp_all

theorem Memory.mem_write {m : Memory} {a : Nat} {b : Byte} {c : Host.Cell}
    (h : c ∈ Memory.write m a b) : c = (a, b) ∨ c ∈ m := by
  induction m with
  | nil => simpa [Memory.write] using h
  | cons cell m ih =>
    obtain ⟨x, v⟩ := cell
    simp only [Memory.write] at h
    split at h
    · simpa using h
    · split at h
      · rcases List.mem_cons.mp h with h | h
        · exact .inl h
        · exact .inr (List.mem_cons_of_mem _ h)
      · rcases List.mem_cons.mp h with h | h
        · exact .inr (h ▸ List.mem_cons_self)
        · exact (ih h).imp_right (List.mem_cons_of_mem _)

/-- A write to an index of the buffer keeps the canonical form. -/
theorem Memory.wf_write {m : Memory} {a : Nat} (b : Byte) (hm : Memory.wf m) (ha : a < Config.msgMax) :
    Memory.wf (Memory.write m a b) := by
  refine ⟨?_, fun c hc => ?_⟩
  · have hp := hm.1
    clear hm
    induction m with
    | nil => simp [Memory.write]
    | cons cell m ih =>
      obtain ⟨x, v⟩ := cell
      obtain ⟨hx, hp'⟩ := List.pairwise_cons.mp hp
      simp only [Memory.write]
      split
      · rename_i hlt
        refine List.pairwise_cons.mpr ⟨fun c hc => ?_, hp⟩
        rcases List.mem_cons.mp hc with rfl | hc
        · exact hlt
        · exact lt_trans hlt (hx c hc)
      · split
        · rename_i heq; subst heq
          exact List.pairwise_cons.mpr ⟨hx, hp'⟩
        · refine List.pairwise_cons.mpr ⟨fun c hc => ?_, ih hp'⟩
          rcases Memory.mem_write hc with rfl | hc
          · show x < a; omega
          · exact hx c hc
  · rcases Memory.mem_write hc with rfl | hc
    · exact ha
    · exact hm.2 c hc

theorem Memory.wf_nil : Memory.wf [] := by simp [Memory.wf]

theorem Memory.write_write_same (m : Memory) (a : Nat) (b : Byte) :
    Memory.write (Memory.write m a b) a b = Memory.write m a b := by
  induction m with
  | nil => simp [Memory.write]
  | cons cell m ih =>
    obtain ⟨x, v⟩ := cell
    simp only [Memory.write]
    split
    · simp [Memory.write]
    · split
      · simp [Memory.write]
      · simp_all [Memory.write]

/-- The message is `LEN` bytes long. -/
@[simp] theorem message_length (s : State) : (message s).length = s.len.toNat := by simp [message]

/-- START finds no unwritten byte exactly when every byte below `LEN` is written. -/
theorem firstUnwritten_eq_none_iff (s : State) :
    firstUnwritten s = none ↔ ∀ a < s.len.toNat, Memory.written s.msg a = true := by
  simp [firstUnwritten]

end Sys2Proof.Machine
end

