-- ==== Sys2Proof/Laws/PerInstr.lean ====
section
/-! SUPPORT. Statements about every command as text, one lemma per constructor. -/

/-! ## Fits: every command is well-formed, since its operands have their fields' widths -/

def Sys2Proof.Laws.Fits.Statement (i : Sys2Proof.Instr) : Prop := i.wellFormed = true

namespace Sys2Proof.Laws.Fits

theorem nop : Statement .nop := rfl

theorem wrmsg (index : BitVec 8) (byte : Byte) : Statement (.wrmsg index byte) := by
  have h₁ := index.isLt
  have h₂ := byte.isLt
  simp only [Statement, Instr.wellFormed, Instr.stmt, Asm.Stmt.wellFormed, Bool.and_eq_true,
    decide_eq_true_eq]
  omega

theorem setlen (len : BitVec 9) : Statement (.setlen len) := by
  have h := len.isLt
  simp only [Statement, Instr.wellFormed, Instr.stmt, Asm.Stmt.wellFormed, decide_eq_true_eq]
  omega

theorem setditcw (dit : Dit) : Statement (.setditcw dit) := by
  have h := dit.isLt
  simp only [Statement, Instr.wellFormed, Instr.stmt, Asm.Stmt.wellFormed, decide_eq_true_eq]
  omega

theorem setditqrss (dit : Dit) : Statement (.setditqrss dit) := by
  have h := dit.isLt
  simp only [Statement, Instr.wellFormed, Instr.stmt, Asm.Stmt.wellFormed, decide_eq_true_eq]
  omega

theorem start (mode : KeyingMode) : Statement (.start mode) := by cases mode <;> rfl

theorem clrerr : Statement .clrerr := rfl

end Sys2Proof.Laws.Fits

/-! ## OpcodeField: bits 31..28 of an encoded command are its opcode -/

def Sys2Proof.Laws.OpcodeField.Statement (i : Sys2Proof.Instr) : Prop :=
  Sys2Proof.opField (Sys2Proof.encode i) = i.opcode

namespace Sys2Proof.Laws.OpcodeField

theorem nop : Statement .nop := rfl

theorem wrmsg (index : BitVec 8) (byte : Byte) : Statement (.wrmsg index byte) := by
  have h₁ := index.isLt
  have h₂ := byte.isLt
  apply BitVec.eq_of_toNat_eq
  rw [opField, field_toNat, encode_wrmsg_toNat]
  change _ = 1
  omega

theorem setlen (len : BitVec 9) : Statement (.setlen len) := by
  have h := len.isLt
  apply BitVec.eq_of_toNat_eq
  rw [opField, field_toNat, encode_setlen_toNat]
  change _ = 2
  omega

theorem setditcw (dit : Dit) : Statement (.setditcw dit) := by
  have h := dit.isLt
  apply BitVec.eq_of_toNat_eq
  rw [opField, field_toNat, encode_setditcw_toNat]
  change _ = 3
  omega

theorem setditqrss (dit : Dit) : Statement (.setditqrss dit) := by
  have h := dit.isLt
  apply BitVec.eq_of_toNat_eq
  rw [opField, field_toNat, encode_setditqrss_toNat]
  change _ = 4
  omega

theorem start (mode : KeyingMode) : Statement (.start mode) := by cases mode <;> rfl

theorem clrerr : Statement .clrerr := rfl

end Sys2Proof.Laws.OpcodeField
end

