-- ==== Sys2Proof/Laws/Run.lean ====
section
/-! SUPPORT. Edges in RUN and in IDLE, and steps one after another. -/

namespace Sys2Proof.Machine

/-- A step is due exactly when the block takes it or the bound is reached (43_commands.md R203). -/
theorem stepDue_iff (par : Config.Params) (choice : Choice) (s : State) :
    stepDue par choice s = true ↔ choice.takeStep = true ∨ par.latMax ≤ s.waited + 1 := by
  simp [stepDue]

/-- An edge without reset in RUN: the command writes `CMD_ERR` alone, and the symbol side follows. -/
theorem edgeWith_run {par : Config.Params} {choice : Choice} {s : State} (hp : s.phase = .run)
    (hr : (nextInput s).rst = false) :
    edgeWith par choice s =
      symbolSide par choice (nextInput s).symReady (consumeInput s) (afterCommandInRun s) := by
  have hc : commandSide (nextInput s) (consumeInput s) = .next (afterCommandInRun s) := by
    unfold commandSide acceptWord afterCommandInRun cmdErrInRun
    split
    · split
      · rename_i i hi
        rw [exec_run (s := consumeInput s) hp]
        cases i <;> simp [hi] <;> rfl
      · rename_i e he
        simp only [he]; rfl
    · rfl
  rw [edgeWith_noReset hr, hc]
  rfl

/-- In IDLE with nothing presented the symbol side does nothing (60_exceptions.md R230). -/
theorem symbolSide_idle {par : Config.Params} {choice : Choice} {ready : Bool} {s : State} (u : State)
    (hp : s.phase = .idle) (hv : s.valid = false) :
    symbolSide par choice ready s u = .next (quiet u) := by
  have h1 : presentEnabled par s = false := by unfold presentEnabled; split <;> simp [busy, hp]
  have h2 : finishEnabled par s = false := by unfold finishEnabled; split <;> simp [busy, hp]
  simp [symbolSide, hv, h1, h2]

/-- The first of several steps. -/
theorem run_succ {s t : State} (h : step s = .next t) (k : Nat) :
    Host.Core.run Sys2Proof.core (k + 1) s = Host.Core.run Sys2Proof.core k t := by
  have hs : Sys2Proof.core.step s = .next t := h
  simp only [Host.Core.run, hs]

end Sys2Proof.Machine
end

