-- ==== Sys2Proof/Tests/Slice0.lean ====
section
/-! SUPPORT. The model's own tests. Expected results come from the spec: the worked encodings of
30_encoding.md R83 and R86, and the vectors of 95_test_vectors.md, named by their numbers. The second
half shows, for the statements of Certificates/Slice0/Obligations.lean, inputs that meet their
hypotheses. -/

namespace Sys2Proof.Tests

open Sys2Proof.Machine

/-! ## Helpers -/

/-- The answer is a next state of which `p` holds. -/
def answers (r : Result) (p : State → Bool) : Bool :=
  match r with
  | .next t => p t
  | .fault _ => false
  | .refused _ => false

/-- `MSG[0..]` written with `text`, `LEN` its length, `DIT_CW` = 100 and `DIT_QRSS` = 6000. -/
def loaded (text : List Byte) : State :=
  { State.reset with
    msg := text.zipIdx.map fun c => (c.2, c.1)
    len := BitVec.ofNat 9 text.length, ditCw := 100, ditQrss := 6000 }

/-- The RUN of `START OOK` over `text`. -/
def running (text : List Byte) : State := { loaded text with phase := .run, ditL := 100 }

/-- `s` with the inputs of its next edge. -/
def withInput (rst cmdValid : Bool) (w : Word) (ready : Bool) (s : State) : State :=
  { s with inputs := [⟨rst, cmdValid, w, ready⟩] }

/-- The abort policy, and a latency bound of 5 edges. -/
def abortPar : Config.Params := ⟨false, false, 5⟩

/-- The skip policy. -/
def skipPar : Config.Params := ⟨true, false, 5⟩

/-- The block takes every step at once. -/
def eager : Choice := ⟨true, true⟩

/-- The block stalls when it may. -/
def lazy : Choice := ⟨false, false⟩

/-- The kinds of an `Ok` result, in the legend of 95_test_vectors.md. -/
def kindsOf (r : EncodeResult) : Option (List MorseSymbol) :=
  match r with
  | .ok symbols => some (symbols.map TimedSymbol.kind)
  | .err _ => none

/-! ## Decoding: words written out from 30_encoding.md R71 and R72 -/

theorem test_decode_nop : decode 0b00000000000000000000000000000000 = .ok .nop := by decide

theorem test_decode_wrmsg :
    decode 0b00010000000000001111111100100000 = .ok (.wrmsg 255 0x20) := by decide

theorem test_decode_setlen : decode 0b00100000000000000000000100000000 = .ok (.setlen 256) := by decide

theorem test_decode_setditcw :
    decode 0b00110000000000000000000001100100 = .ok (.setditcw 100) := by decide

theorem test_decode_setditqrss :
    decode 0b01001111111111111111111111111111 = .ok (.setditqrss 268435455) := by decide

theorem test_decode_start :
    decode 0b01010000000000000000000000000001 = .ok (.start .frequencyShiftKeyed) := by decide

theorem test_decode_clrerr : decode 0b01100000000000000000000000000000 = .ok .clrerr := by decide

theorem test_decode_reserved_opcode :
    decode 0x70000000 = .error (.reservedOpcode 7) ∧ decode 0xFFFFFFFF = .error (.reservedOpcode 15) := by
  decide

theorem test_decode_reserved_bits :
    decode 0x00000001 = .error (.reservedBits 0) ∧ decode 0x10010000 = .error (.reservedBits 1) ∧
      decode 0x20000200 = .error (.reservedBits 2) ∧ decode 0x50000002 = .error (.reservedBits 5) ∧
      decode 0x60000001 = .error (.reservedBits 6) := by decide

theorem test_decodeTableWord : decodeTableWord 32 0x1000014F = some (.wrmsg 1 0x4F) := by decide

/-! ## WellFormed: for each check a statement that it refuses, at the first value past the bound -/

theorem test_wrmsg_index_too_large : (Asm.Stmt.wrmsg 256 0).wellFormed = false := by decide

theorem test_wrmsg_byte_too_large : (Asm.Stmt.wrmsg 0 256).wellFormed = false := by decide

theorem test_setlen_too_large : (Asm.Stmt.setlen 512).wellFormed = false := by decide

theorem test_setditcw_too_large : (Asm.Stmt.setditcw 268435456).wellFormed = false := by decide

theorem test_setditqrss_too_large : (Asm.Stmt.setditqrss 268435456).wellFormed = false := by decide

theorem test_start_mode_too_large : (Asm.Stmt.start 2).wellFormed = false := by decide

theorem test_loadmsg_too_long : (Asm.Stmt.loadmsg (List.replicate 257 0x41)).wellFormed = false := by
  decide +kernel

/-! ## The table, the encoder and the symbol word -/

theorem test_rom_entries :
    rom 0x53 = 0x2C0 ∧ rom 0x30 = 0x35F ∧ rom 0x22 = 0x392 ∧ rom 0x23 = 0 ∧ lookup true 0x61 = 0x282 ∧
      lookup false 0x61 = 0 := by decide +kernel

/-- Section 2.2: "A B", "A#B" skipped, " A". -/
theorem test_encode_gaps :
    kindsOf (encodeMessage abortPar [0x41, 0x20, 0x42] .onOffKeyed 100) =
        some [.dot, .intraCharacterGap, .dash, .wordGap, .dash, .intraCharacterGap, .dot,
          .intraCharacterGap, .dot, .intraCharacterGap, .dot] ∧
      kindsOf (encodeMessage skipPar [0x41, 0x23, 0x42] .onOffKeyed 100) =
        some [.dot, .intraCharacterGap, .dash, .interCharacterGap, .dash, .intraCharacterGap, .dot,
          .intraCharacterGap, .dot, .intraCharacterGap, .dot] ∧
      kindsOf (encodeMessage abortPar [0x20, 0x41] .onOffKeyed 100) =
        some [.wordGap, .dot, .intraCharacterGap, .dash] := by decide +kernel

/-- Section 2.2: "AB#C$", and "#" with dit 0. -/
theorem test_encode_errors :
    encodeMessage abortPar [0x41, 0x42, 0x23, 0x43, 0x24] .onOffKeyed 100 =
        .err (.unsupportedCharacter 2 0x23) ∧
      encodeMessage abortPar [0x23] .onOffKeyed 0 = .err .invalidDit := by decide +kernel

/-- Section 2.3: K8, K13 and K14. -/
theorem test_symbol_words :
    (timedSymbol .dash .frequencyShiftKeyed 100 false).word = 0x000258D9 ∧
      (timedSymbol .dash .frequencyShiftKeyed 268435455 true).word = 0x5FFFFFFBD9 ∧
      (timedSymbol .wordGap .frequencyShiftKeyed 268435455 true).word = 0xDFFFFFF37C := by decide

/-! ## Commands (section 2.4), each as the first step after reset or on a small state -/

/-- C3 and C21: WRMSG stores while IDLE and is rejected BUSY while RUN. -/
theorem test_wrmsg :
    answers (acceptWord 0x10000053 (loaded [0x45])) (fun t => t.msg == [(0, 0x53)]) = true ∧
      answers (acceptWord 0x10000054 (running [0x45]))
        (fun t => t.cmdErr == .busy && t.msg == [(0, 0x45)]) = true := by decide

/-- C8 and C9. -/
theorem test_setlen :
    answers (acceptWord 0x20000100 (loaded [0x45])) (fun t => t.len == 256) = true ∧
      answers (acceptWord 0x20000101 (loaded [0x45]))
        (fun t => t.cmdErr == .range && t.len == 1) = true := by decide

/-- C13. -/
theorem test_setditcw :
    answers (acceptWord 0x3FFFFFFF (loaded [0x45])) (fun t => t.ditCw == 0x0FFFFFFF) = true := by decide

/-- C14. -/
theorem test_setditqrss :
    answers (acceptWord 0x4FFFFFFF (loaded [0x45])) (fun t => t.ditQrss == 0x0FFFFFFF) = true := by
  decide

/-- C16, and C13's neighbour: the other mode's dit is not latched. -/
theorem test_start :
    answers (acceptWord 0x50000001 (loaded [0x45])) (fun t =>
      t.phase == .run && t.modeL == .frequencyShiftKeyed && t.ditL == 6000 && t.p == 0) = true := by
  decide

/-- C28. -/
theorem test_start_refused :
    exec (.start .onOffKeyed) { loaded [0x45] with len := 2 } = .refused (.unwrittenMessageByte 1) := by
  rfl

/-- C25, and C18: an illegal CLRERR word sets `CMD_ERR`. -/
theorem test_clrerr :
    answers (acceptWord 0x60000000 { running [0x45] with cmdErr := .busy })
        (fun t => t.cmdErr == .noError && t.phase == .run) = true ∧
      answers (acceptWord 0x60000001 (loaded [0x45])) (fun t => t.cmdErr == .illegal) = true := by
  decide

/-- C26. -/
theorem test_nop :
    answers (acceptWord 0x00000000 (running [0x45])) (fun t => t == running [0x45]) = true := by decide

/-- C22 and C23: BUSY before RANGE, ILLEGAL before BUSY. -/
theorem test_check_order :
    answers (acceptWord 0x20000101 (running [0x45])) (fun t => t.cmdErr == .busy) = true ∧
      answers (acceptWord 0x70000000 (running [0x45])) (fun t => t.cmdErr == .illegal) = true := by
  decide

/-- C9, C22 and C23 at the port `cmd_err`: RANGE 3, BUSY 2, ILLEGAL 1. -/
theorem test_cmd_err_codes :
    answers (acceptWord 0x20000101 (loaded [0x45])) (fun t => (outputs false t).cmdErr == 3) = true ∧
      answers (acceptWord 0x20000101 (running [0x45])) (fun t => (outputs false t).cmdErr == 2) = true ∧
      answers (acceptWord 0x70000000 (running [0x45])) (fun t => (outputs false t).cmdErr == 1) =
        true := by decide +kernel

/-- 10_state.md R32 at the port `enc_err`: UNSUPPORTED_CHAR 1, which a consumer reads as
`EncodingFailed` (60_exceptions.md R222), and INVALID_DIT 2. -/
theorem test_enc_err_codes :
    answers (edgeWith abortPar eager (running [0x41, 0x42, 0x23]))
        (fun t => (outputs false t).encErr == 1 && encodingFailed (outputs false t)) = true ∧
      answers (edgeWith abortPar eager { running [0x45] with ditL := 0 })
        (fun t => (outputs false t).encErr == 2 && !encodingFailed (outputs false t)) = true := by
  decide +kernel

/-- The host's word runs as the first step after reset. -/
theorem test_step_after_reset :
    answers (step (State.reset.withFetchWord 32 0x30000064)) (fun t => t.ditCw == 100) = true := by
  decide

/-! ## The clock edge (section 2.6) -/

/-- E1, over "S": PRESENT, or a stall. -/
theorem test_edge_present :
    answers (edgeWith abortPar eager (running [0x53])) (fun t => t.valid && t.phase == .run) = true ∧
      answers (edgeWith abortPar lazy (running [0x53])) (fun t => !t.valid && t.waited == 1) = true := by
  decide +kernel

/-- E9, over "S" at `P` = 0: a transfer beside a START that is rejected BUSY. -/
theorem test_edge_transfer_with_command :
    answers (edgeWith abortPar lazy
        (withInput false true 0x50000000 true { running [0x53] with valid := true }))
      (fun t => t.p == 1 && !t.valid && t.cmdErr == .busy && t.taken == [0x0000C848]) = true := by
  decide +kernel

/-- E3, over "S": the last transfer leaves RUN and `DONE`. -/
theorem test_edge_last_transfer :
    answers (edgeWith abortPar eager
        (withInput false false 0 true { running [0x53] with valid := true, p := 4 }))
      (fun t => t.p == 5 && !t.valid && t.phase == .run && !t.done && t.taken == [0x0000C948]) =
        true := by decide +kernel

/-- E6: the abort policy's FINISH over "AB#". -/
theorem test_edge_finish_unsupported :
    answers (edgeWith abortPar eager (withInput false false 0 true (running [0x41, 0x42, 0x23])))
      (fun t => t.phase == .idle && t.done && t.encErr == .unsupportedChar && t.errIndex == 2 &&
        t.errByte == 0x23) = true := by decide +kernel

/-- E10: a START at the edge of FINISH reads the pre-edge RUN. -/
theorem test_edge_finish_with_start :
    answers (edgeWith abortPar eager
        (withInput false true 0x50000000 false { running [0x45] with p := 1 }))
      (fun t => t.phase == .idle && t.done && t.cmdErr == .busy) = true := by decide +kernel

/-- E11: reset dominates. -/
theorem test_edge_reset :
    answers (edgeWith abortPar eager
        (withInput true true 0x60000000 true { running [0x45] with valid := true }))
      (fun t => t == { State.reset with draws := 1 }) = true := by decide +kernel

/-! ## The assembler (30_encoding.md R84, R85) -/

/-- `WRMSG 0, 'S' ; x` and, on the next line, `SETLEN 0x3`. -/
theorem test_assemble :
    Asm.assemble (Asm.ascii ['W', 'R', 'M', 'S', 'G', ' ', '0', ',', ' ', '\'', 'S', '\'', ' ', ';', 'x',
      '\n', 'S', 'E', 'T', 'L', 'E', 'N', ' ', '0', 'x', '3']) = .ok [0x10000053, 0x20000003] := by
  decide +kernel

/-- The second line, `SETLEN 512`, is refused by name and line. -/
theorem test_assemble_refuses :
    Asm.assemble (Asm.ascii ['N', 'O', 'P', '\n', 'S', 'E', 'T', 'L', 'E', 'N', ' ', '5', '1', '2']) =
      .error ⟨2, .operandDoesNotFit⟩ := by decide +kernel

/-- `LOADMSG "SO"` with its quotes, as P1 loads its text. -/
theorem test_assemble_loadmsg :
    Asm.assemble (Asm.ascii ['L', 'O', 'A', 'D', 'M', 'S', 'G', ' '] ++ [0x22, 0x53, 0x4F, 0x22]) =
      .ok [0x20000002, 0x10000053, 0x1000014F] := by decide +kernel

/-! ## Witnesses: inputs that meet the statements' hypotheses -/

/-- ResetDominatesTheEdge: this edge resets, and so does the one after it. -/
theorem witness_reset_edges :
    let s : State := { running [0x45] with inputs := [⟨true, true, 0, true⟩, ⟨true, false, 0, false⟩] }
    (nextInput s).rst = true ∧
      (nextInput { State.reset with inputs := s.inputs.tail, draws := s.draws + 1 }).rst = true := by
  decide

/-- EncodeOfDecodeIsTheWord. -/
theorem witness_decodes : decode 0x20000100 = .ok (.setlen 256) := by decide

/-- DecodeFollowsMatchAndMask: a row and a word it selects. -/
theorem witness_selects :
    (⟨0x5, 0x50000000, 0xFFFFFFFE⟩ : OpcodeRow) ∈ opcodeRows ∧
      (⟨0x5, 0x50000000, 0xFFFFFFFE⟩ : OpcodeRow).selects 0x50000001 = true := by decide

/-- IllegalWordsAreRejected, ChecksAreTakenInOrder: illegal words of both kinds and the legal words next
to them; a legal word in RUN; SETLEN 257 in IDLE. -/
theorem witness_check_order :
    illegalWord 0x70000000 = true ∧ illegalWord 0x50000002 = true ∧ illegalWord 0x50000001 = false ∧
      illegalWord 0x20000101 = false ∧ opField 0x20000101 = 0x2 ∧
      Config.msgMax < (field 0x20000101 0 9).toNat ∧ (running [0x45]).phase = .run ∧
      (loaded [0x45]).phase = .idle ∧ opField 0x20000101 ≠ 0x0 ∧ opField 0x20000101 ≠ 0x6 := by decide

/-- WrmsgWordStoresOneByteOrIsRejected, SetlenWordSetsLenOrIsRejected, DitWordsSetTheirRegister,
StartWordBeginsARunOrIsRejected, ClrerrAndNopWordsInAnyPhase: a word of each opcode; and an index at
`LEN`. -/
theorem witness_opcodes :
    opField 0x10000053 = 0x1 ∧ opField 0x20000003 = 0x2 ∧ opField 0x30000064 = 0x3 ∧
      opField 0x40001770 = 0x4 ∧ opField 0x50000000 = 0x5 ∧ opField 0x60000000 = 0x6 ∧
      opField 0x00000001 = 0x0 ∧ (loaded [0x45]).len.toNat ≤ 1 := by decide

/-- WrmsgCompletes, SettersComplete, StartCompletes, StartWordBeginsARunOrIsRejected: IDLE, every byte
below `LEN` written, and START answers. -/
theorem witness_start :
    (loaded [0x45]).phase = .idle ∧ messageWritten (loaded [0x45]) ∧
      exec (.start .onOffKeyed) (loaded [0x45]) = .next (beginRun .onOffKeyed (loaded [0x45])) :=
  ⟨by decide, by decide, rfl⟩

/-- DitWordsSetTheirRegister: a zero dit, and a START that answers, in both modes. -/
theorem witness_zero_dit :
    State.reset.phase = .idle ∧ State.reset.ditCw = 0 ∧ State.reset.ditQrss = 0 ∧
      exec (.start .onOffKeyed) State.reset = .next (beginRun .onOffKeyed State.reset) ∧
      exec (.start .frequencyShiftKeyed) State.reset =
        .next (beginRun .frequencyShiftKeyed State.reset) :=
  ⟨rfl, rfl, rfl, rfl, rfl⟩

/-- SettersComplete: `LEN` at `MSG_MAX` and one past it. -/
theorem witness_setlen_bound :
    (256 : BitVec 9).toNat ≤ Config.msgMax ∧ ¬(257 : BitVec 9).toNat ≤ Config.msgMax := by decide

/-- StartRefusesAnUnwrittenByte: byte 0 written, byte 1 not, `LEN` = 2; and a WRMSG that answers. -/
theorem witness_unwritten :
    let s : State := { loaded [0x45] with len := 2 }
    s.phase = .idle ∧ 1 < s.len.toNat ∧ Memory.written s.msg 1 = false ∧
      (∀ b < 1, Memory.written s.msg b = true) ∧
      exec (.wrmsg 1 0x45) s = .next { s with msg := [(0, 0x45), (1, 0x45)] } :=
  ⟨by decide, by decide, by decide, by decide, rfl⟩

/-- RepeatedCommandsAreIdempotent: a START and a WRMSG that answer. -/
theorem witness_repeated :
    (∃ t, exec (.start .onOffKeyed) (loaded [0x45]) = .next t) ∧
      ∃ t, exec (.wrmsg 0 0x54) (loaded [0x45]) = .next t := ⟨⟨_, rfl⟩, ⟨_, rfl⟩⟩

/-- RunIsLockedAgainstCommands: RUN, no reset, a decoded command, and an edge that answers. -/
theorem witness_run_edge :
    let s := withInput false true 0x50000000 true (running [0x53])
    s.phase = .run ∧ (nextInput s).rst = false ∧ decode 0x50000000 = .ok (.start .onOffKeyed) ∧
      answers (edgeWith abortPar eager s) (fun t => t.valid) = true := by decide +kernel

/-- StepRunsTheDecodedCommand: a command offered in IDLE, and a row's word. -/
theorem witness_offered :
    let s := withInput false true 0x10000053 true (loaded [0x45])
    (nextInput s).rst = false ∧ (nextInput s).cmdValid = true ∧
      decode (nextInput s).cmdWord = .ok (.wrmsg 0 0x53) ∧ s.phase = .idle ∧ s.valid = false ∧
      decodeTableWord 32 0x10000053 = some (.wrmsg 0 0x53) := by decide

/-- StepRunsTheDecodedCommand: an illegal word offered in IDLE, and in RUN. -/
theorem witness_illegal_offered :
    let s := withInput false true 0x50000002 true (loaded [0x45])
    let r := withInput false true 0x70000000 true (running [0x45])
    ((nextInput s).rst = false ∧ (nextInput s).cmdValid = true ∧
      illegalWord (nextInput s).cmdWord = true ∧ s.phase = .idle ∧ s.valid = false) ∧
    (nextInput r).rst = false ∧ (nextInput r).cmdValid = true ∧
      illegalWord (nextInput r).cmdWord = true ∧ r.phase = .run := by decide

/-- OutputsShowTheState: a presented symbol; and under the skip policy an edge that ends a RUN over an
unsupported byte. -/
theorem witness_outputs :
    seq Config.params { running [0x45] with valid := true } =
        .ok [timedSymbol .dot .onOffKeyed 100 true] ∧
      skipPar.skipUnsupported = true ∧ (running [0x23]).encErr ≠ .unsupportedChar ∧
      answers (edgeWith skipPar eager (running [0x23])) (fun t => t.phase == .idle && t.done) = true := by
  decide +kernel

/-- IdleEdgeHoldsTheState, SymReadyHasNoEffectWhileNothingIsPresented. -/
theorem witness_idle :
    let s := withInput false false 0 true (loaded [0x45])
    s.phase = .idle ∧ s.valid = false ∧ (nextInput s).rst = false ∧ (nextInput s).cmdValid = false := by
  decide

/-- TransferTakesTheSymbolAtP, PresentedSymbolIsStable: the first symbol of "A", presented, with
`sym_ready` 1, 0, and at a reset. -/
theorem witness_presented :
    let s : State := { running [0x41] with valid := true }
    (RunInvariant abortPar (withInput false false 0 true s) ∧
      (nextInput (withInput false false 0 true s)).symReady = true) ∧
    (RunInvariant abortPar (withInput false false 0 false s) ∧
      (nextInput (withInput false false 0 false s)).symReady = false ∧
      (nextInput (withInput false false 0 false s)).rst = false) ∧
    (nextInput (withInput true false 0 false s)).rst = true ∧ s.valid = true := by decide +kernel

/-- TransferTakesTheSymbolAtP: the last symbol of "A". -/
theorem witness_last_presented :
    RunInvariant abortPar (withInput false false 0 true { running [0x41] with
      valid := true, p := 2, taken := [0x0000C848, 0x0000C80A] }) := by decide +kernel

/-- PresentEdgePresentsOrStalls: `SEQ` of "E" has one symbol and `P` is 0. -/
theorem witness_present_enabled :
    let s := running [0x45]
    (nextInput s).rst = false ∧ s.phase = .run ∧ s.valid = false ∧
      seq abortPar s = .ok [timedSymbol .dot .onOffKeyed 100 true] ∧ s.p.toNat < 1 := by
  decide +kernel

/-- FinishEdgeReportsOrStalls: `Ok` at the end, InvalidDit, an unsupported byte; due and not due. -/
theorem witness_finish_enabled :
    seq abortPar { running [0x45] with p := 1 } = .ok [timedSymbol .dot .onOffKeyed 100 true] ∧
      seq abortPar { running [0x45] with ditL := 0 } = .err .invalidDit ∧
      seq abortPar (running [0x41, 0x23]) = .err (.unsupportedCharacter 1 0x23) ∧
      (running [0x45]).valid = false ∧ (nextInput (running [0x45])).rst = false ∧
      (eager.takeStep = true ∨ abortPar.latMax ≤ (running [0x45]).waited + 1) ∧
      ¬(lazy.takeStep = true ∨ abortPar.latMax ≤ (running [0x45]).waited + 1) := by decide +kernel

/-- FinishEdgeReportsOrStalls: the edge of the last transfer answers. -/
theorem witness_transfer_edge :
    (withInput false false 0 true { running [0x53] with valid := true, p := 4 }).phase = .run ∧
      (withInput false false 0 true { running [0x53] with valid := true, p := 4 }).valid = true ∧
      answers (edgeWith abortPar eager
        (withInput false false 0 true { running [0x53] with valid := true, p := 4 }))
        (fun t => t.p == 5) = true := by decide +kernel

/-- ResetMeetsTheInvariant: the smallest latency bound. -/
theorem witness_latMax : 1 ≤ (⟨true, false, 1⟩ : Config.Params).latMax := by decide

/-- StepKeepsTheInvariant, StepStopsOnlyAtAnUnwrittenStart: a state with the invariant for this
hardware's parameters, whose step answers; and one in RUN for stated parameters, whose edge answers. -/
theorem witness_invariant_steps :
    RunInvariant Config.params (State.reset.withFetchWord 32 0x30000064) ∧
      answers (step (State.reset.withFetchWord 32 0x30000064)) (fun t => t.ditCw == 100) = true ∧
      RunInvariant abortPar (running [0x45]) ∧
      answers (edgeWith abortPar eager (running [0x45])) (fun t => t.valid) = true :=
  ⟨⟨by decide, by decide, by decide, by decide, by decide, by decide, Nat.succ_pos _⟩, by decide,
    by decide +kernel, by decide +kernel⟩

/-- FinishedRunTransferredTheSequence: an edge that ends a RUN, after "E" was taken. -/
theorem witness_run_ends_ok :
    RunInvariant abortPar { running [0x45] with p := 1, taken := [0x0000C948] } ∧
      answers (edgeWith abortPar eager { running [0x45] with p := 1, taken := [0x0000C948] })
        (fun t => t.phase == .idle) = true := by decide +kernel

/-- FinishedRunTransferredTheSequence: a RUN that ends with InvalidDit. -/
theorem witness_run_ends_invalidDit :
    RunInvariant abortPar { running [] with ditCw := 0, ditL := 0 } ∧
      seq abortPar { running [] with ditCw := 0, ditL := 0 } = .err .invalidDit ∧
      answers (edgeWith abortPar eager { running [] with ditCw := 0, ditL := 0 })
        (fun t => t.phase == .idle) = true := by decide +kernel

/-- FinishedRunTransferredTheSequence: a RUN that ends with an unsupported byte. -/
theorem witness_run_ends_unsupported :
    RunInvariant abortPar (running [0x23]) ∧
      seq abortPar (running [0x23]) = .err (.unsupportedCharacter 0 0x23) ∧
      answers (edgeWith abortPar eager (running [0x23])) (fun t => t.phase == .idle) = true := by
  decide +kernel

/-- EnabledStepIsTakenWithinLatMax: PRESENT enabled, and FINISH enabled, and no reset ahead. -/
theorem witness_enabled :
    presentEnabled Config.params (running [0x45]) = true ∧
      finishEnabled Config.params { running [0x45] with p := 1 } = true ∧
      ∀ input ∈ (running [0x45]).inputs.take Config.params.latMax, input.rst = false :=
  ⟨by decide +kernel, by decide +kernel, by simp [running, loaded, State.reset]⟩

/-- ReadyHostSeesTheRunEnd: a RUN over "E", and one that ends with InvalidDit, each with as many ready
edges ahead as the bound asks for. -/
theorem witness_ready_host :
    let n := (1 - 0) * (Config.params.latMax + 1) + Config.params.latMax
    let s₁ : State := { running [0x45] with inputs := List.replicate n readyInput ++ [] }
    let s₂ : State := { running [] with
      ditCw := 0, ditL := 0, inputs := List.replicate Config.params.latMax readyInput ++ [] }
    (RunInvariant Config.params s₁ ∧
      seq Config.params s₁ = .ok [timedSymbol .dot .onOffKeyed 100 true] ∧ s₁.p.toNat = 0) ∧
    RunInvariant Config.params s₂ ∧ seq Config.params s₂ = .err .invalidDit :=
  ⟨⟨⟨by decide, by decide, by decide, by decide, by decide +kernel, by decide, Nat.succ_pos _⟩,
      by decide +kernel, by decide⟩,
    ⟨by decide, by decide, by decide, by decide, by decide +kernel, by decide, Nat.succ_pos _⟩,
    by decide⟩

/-- StartIsIndependentOfHistory: a fresh state and one an earlier RUN has left. -/
theorem witness_history :
    let s₁ := loaded [0x45]
    let s₂ : State := { loaded [0x45] with
      p := 7, done := true, encErr := .unsupportedChar, errIndex := 2, modeL := .frequencyShiftKeyed }
    s₁.phase = .idle ∧ s₂.phase = .idle ∧ messageWritten s₁ ∧ s₁.len = s₂.len ∧
      (∀ a < s₁.len.toNat, Memory.read s₁.msg a = Memory.read s₂.msg a) ∧
      selectedDit .onOffKeyed s₁ = selectedDit .onOffKeyed s₂ := by decide

/-- MorseTableHasTheListedPatterns, MorseEntriesHaveTheirFormat, MorseTableProperties,
CaseFoldingIsOnlyOfLetters: bytes of each sort. -/
theorem witness_bytes :
    (∀ row ∈ morseColumn, row.1 ≠ (0x23 : Byte)) ∧ entryValid (rom 0x23) = false ∧
      entryValid (rom 0x20) = true ∧ entryCount (rom 0x20) = 0 ∧ entryValid (rom 0x2C) = true ∧
      entryCount (rom 0x2C) = 6 ∧ supported false 0x41 = true ∧
      (0x61 : Byte).toNat = 0x61 ∧ (0x7A : Byte).toNat = 0x7A ∧ (0x60 : Byte).toNat < 0x61 ∧
      0x7A < (0x7B : Byte).toNat := by decide +kernel

/-- AbortReportsTheLowestUnsupportedByte: both sides of its equivalence, and an error of a state. -/
theorem witness_abort :
    abortPar.skipUnsupported = false ∧ (100 : Dit) ≠ 0 ∧
      encodeMessage abortPar [0x41, 0x23] .onOffKeyed 100 = .err (.unsupportedCharacter 1 0x23) ∧
      seq abortPar (running [0x23]) = .err (.unsupportedCharacter 0 0x23) := by decide +kernel

/-- SkipLeavesUnsupportedBytesOut, EmptyMessageGivesTheEmptySequence: a message of unsupported bytes
under the skip policy. -/
theorem witness_skip :
    skipPar.skipUnsupported = true ∧ (1 : Dit) ≠ 0 ∧
      ∀ b ∈ ([0x23, 0x65] : List Byte), supported skipPar.caseFold b = false := by decide +kernel

/-- CharacterIsElementsWithGapsBetween, GapsStandBetweenCharactersAndForSpaces: a space, a character of
one element and one of six. -/
theorem witness_characters :
    elementCount false 0x20 = 0 ∧ elementCount false 0x45 = 1 ∧ elementCount false 0x2C = 6 := by
  decide +kernel

/-- GapsStandBetweenCharactersAndForSpaces: a message of supported bytes, and one that is not, under the
skip policy. -/
theorem witness_not_aborted :
    (100 : Dit) ≠ 0 ∧ (∀ b ∈ ([0x41, 0x20, 0x4E] : List Byte), supported abortPar.caseFold b = true) ∧
      abortPar.skipUnsupported = false ∧ skipPar.skipUnsupported = true ∧
      supported skipPar.caseFold 0x23 = false := by decide +kernel

/-- SequenceLengthIsBounded, ElementsAndGapsAlternate, TotalDurationIsUnitsTimesDit,
LastMarksTheFinalSymbolOnly, FskNeverTurnsTheCarrierOff, ToneIsHighOnlyOnFskDashes,
ModeChangesOnlyCarrierAndTone, SymbolCodesStayInRange, DurationIsExactAndNonzero: "T T" encodes in both modes, with equal dits;
its symbols are two Dashes around a WordGap. -/
theorem witness_encodes :
    encodeMessage abortPar [0x54, 0x20, 0x54] .onOffKeyed 100 =
        .ok [timedSymbol .dash .onOffKeyed 100 false, timedSymbol .wordGap .onOffKeyed 100 false,
          timedSymbol .dash .onOffKeyed 100 true] ∧
      encodeMessage abortPar [0x54, 0x20, 0x54] .frequencyShiftKeyed 100 =
        .ok [timedSymbol .dash .frequencyShiftKeyed 100 false,
          timedSymbol .wordGap .frequencyShiftKeyed 100 false,
          timedSymbol .dash .frequencyShiftKeyed 100 true] ∧
      ([0x54, 0x20, 0x54] : List Byte).length ≤ Config.msgMax := by decide +kernel

/-- ElementsAndGapsAlternate: gaps of the other two kinds, in "AE"; and two WordGaps side by side. -/
theorem witness_gaps :
    kindsOf (encodeMessage abortPar [0x41, 0x45] .onOffKeyed 100) =
        some [.dot, .intraCharacterGap, .dash, .interCharacterGap, .dot] ∧
      kindsOf (encodeMessage abortPar [0x20, 0x20] .onOffKeyed 100) = some [.wordGap, .wordGap] := by
  decide +kernel

/-- SosEncodesToTheWorkedSequence, SequenceLengthIsBounded: no folding; DurationIsExactAndNonzero: the
largest dit. -/
theorem witness_no_fold : abortPar.caseFold = false ∧ (268435455 : Dit) ≠ 0 := by decide

/-- LoadmsgLoadsTheText: a text of `MSG_MAX` bytes. -/
theorem witness_loadmsg :
    (List.replicate 256 (0x20 : Byte)).length ≤ Config.msgMax ∧ State.reset.phase = .idle := by
  decide +kernel

/-- OperandsAreNeverTruncated: the first value past each bound. -/
theorem witness_operands :
    255 < 256 ∧ 511 < 512 ∧ 268435455 < 268435456 ∧ 1 < 2 ∧
      Config.msgMax < (List.replicate 257 (0x41 : Byte)).length := by decide +kernel

end Sys2Proof.Tests
end

/-! The statements about the state: its reset value, the run invariant, the refusal and the
independence of START, the output ports. -/

namespace Sys2Proof.Machine

/-! ## `SEQ` and what it enables -/

theorem characterKinds_length_le (cf : Bool) (c : Byte) (rest : List Byte) :
    (characterKinds cf c rest).length ≤ 12 := by
  by_cases h : elementCount cf c = 0
  · simp [characterKinds_space rest h]
  · have helements := elementCount_le_six cf c
    have hgap : (gapBefore cf rest).length ≤ 1 := by
      rcases gapBefore_cases cf rest with hg | hg <;> simp [hg]
    simp only [characterKinds_element rest h, List.length_append, intersperse_length, pattern_length]
    omega

theorem kinds_length_le (cf : Bool) (msg : List Byte) : (kinds cf msg).length ≤ 12 * msg.length := by
  induction msg with
  | nil => simp
  | cons c rest ih =>
    have hc := characterKinds_length_le cf c rest
    simp only [kinds_cons, List.length_append, List.length_cons]
    omega

/-- `SEQ` of a message of at most `MSG_MAX` bytes has fewer symbols than `P` can count
(10_state.md R28). -/
theorem seq_length_le {par : Config.Params} {s : State} {L : List TimedSymbol}
    (h : seq par s = .ok L) : L.length ≤ 12 * s.len.toNat := by
  obtain ⟨-, -, rfl⟩ := encodeMessage_eq_ok h
  have hkept : (keptCharacters par.caseFold (message s)).length ≤ (message s).length :=
    List.length_filter_le _ _
  have hkinds := kinds_length_le par.caseFold (keptCharacters par.caseFold (message s))
  simp only [key_length, message_length] at hkept ⊢
  omega

/-- A latched dit of 0 makes `SEQ` the error InvalidDit (41_message_encoder.md R133). -/
theorem seq_of_ditL_zero {par : Config.Params} {s : State} (h : s.ditL = 0) :
    seq par s = .err .invalidDit := by simp [seq, encodeMessage, h]

/-- The skip policy reports no unsupported byte (41_message_encoder.md R135). -/
theorem seq_ne_unsupported {par : Config.Params} (h : par.skipUnsupported = true) (s : State)
    (k : Nat) (b : Byte) : seq par s ≠ .err (.unsupportedCharacter k b) := by
  intro hseq
  rcases encodeMessage_eq_err hseq with ⟨-, he⟩ | ⟨-, k', b', ha, -⟩
  · cases he
  · simp [abortingByte, h] at ha

theorem busy_iff (s : State) : busy s = true ↔ s.phase = .run := by simp [busy]

/-- PRESENT is enabled exactly in RUN with nothing presented and a symbol at `P`
(43_commands.md R201). -/
theorem presentEnabled_iff (par : Config.Params) (s : State) :
    presentEnabled par s = true ↔
      s.phase = .run ∧ s.valid = false ∧ (symbolAtP par s).isSome = true := by
  unfold presentEnabled symbolAtP
  cases seq par s with
  | ok L => simp [busy_iff, and_left_comm, and_comm]
  | err e => simp

/-- FINISH is enabled exactly in RUN with nothing presented and `SEQ` at its end or an error
(43_commands.md R202). -/
theorem finishEnabled_iff (par : Config.Params) (s : State) :
    finishEnabled par s = true ↔
      s.phase = .run ∧ s.valid = false ∧ ∀ L, seq par s = .ok L → s.p.toNat = L.length := by
  unfold finishEnabled
  cases seq par s with
  | ok L => simp [busy_iff, and_left_comm, and_comm]
  | err e => simp [busy_iff]

/-- A further symbol follows exactly when there is one at `P + 1` (43_commands.md R200). -/
theorem anotherFollows_iff (par : Config.Params) (s : State) :
    anotherFollows par s = true ↔ ∃ L, seq par s = .ok L ∧ s.p.toNat + 1 < L.length := by
  unfold anotherFollows
  cases seq par s <;> simp

theorem positionMatches_of_ok {par : Config.Params} {s : State} {L : List TimedSymbol}
    (h : seq par s = .ok L) :
    positionMatches par s = true ↔
      s.p.toNat ≤ L.length ∧ s.taken = (L.take s.p.toNat).map TimedSymbol.word := by
  simp [positionMatches, h]

/-- Nothing is taken yet at the start of a RUN (43_commands.md R188). -/
theorem positionMatches_of_start {par : Config.Params} {s : State} (hp : s.p = 0)
    (ht : s.taken = []) : positionMatches par s = true := by
  unfold positionMatches
  split <;> simp [hp, ht]

/-! ## The run invariant -/

/-- In IDLE the clauses about a RUN say only that nothing is presented. -/
theorem runInvariant_idle_iff {par : Config.Params} {s : State} (hp : s.phase = .idle) :
    RunInvariant par s ↔ Memory.wf s.msg ∧ s.len.toNat ≤ Config.msgMax ∧ s.valid = false ∧
      statusMatches s ∧ s.waited < par.latMax := by
  simp [RunInvariant, validPresents, runInputs, hp]

theorem RunInvariant.idle_valid {par : Config.Params} {s : State} (h : RunInvariant par s)
    (hp : s.phase = .idle) : s.valid = false := by
  obtain ⟨-, -, hvalid, -⟩ := (runInvariant_idle_iff hp).mp h
  exact hvalid

/-- The invariant does not read `CMD_ERR`. -/
theorem runInvariant_reject_iff (par : Config.Params) (c : CmdErr) (s : State) :
    RunInvariant par (reject c s) ↔ RunInvariant par s := Iff.rfl

/-- The invariant reads neither the host's inputs nor the draw counter. -/
theorem runInvariant_consumeInput_iff (par : Config.Params) (s : State) :
    RunInvariant par (consumeInput s) ↔ RunInvariant par s := Iff.rfl

theorem RunInvariant.setWaited {par : Config.Params} {s : State} (h : RunInvariant par s) {w : Nat}
    (hw : w < par.latMax) : RunInvariant par { s with waited := w } := by
  obtain ⟨hmem, hlen, hvalid, hinputs, hpos, hstatus, -⟩ := h
  exact ⟨hmem, hlen, hvalid, hinputs, hpos, hstatus, hw⟩

theorem RunInvariant.latMax_pos {par : Config.Params} {s : State} (h : RunInvariant par s) :
    0 < par.latMax := by
  obtain ⟨-, -, -, -, -, -, hw⟩ := h
  omega

theorem RunInvariant.after_quiet {par : Config.Params} {s : State} (h : RunInvariant par s) :
    RunInvariant par (quiet s) := h.setWaited h.latMax_pos

theorem runInvariant_reset {par : Config.Params} (h : 0 < par.latMax) :
    RunInvariant par State.reset :=
  (runInvariant_idle_iff rfl).mpr ⟨Memory.wf_nil, by decide, rfl, by decide, h⟩

/-- A reset edge establishes the invariant from any state (70_reset_and_hazards.md R250). -/
theorem runInvariant_resetEdge {par : Config.Params} (h : 0 < par.latMax) (s : State) :
    RunInvariant par (resetEdge s) := runInvariant_reset h

/-- START over written bytes establishes the clauses about the RUN (43_commands.md R188). -/
theorem RunInvariant.after_beginRun {par : Config.Params} {s : State} (h : RunInvariant par s)
    (hw : firstUnwritten s = none) (mode : KeyingMode) : RunInvariant par (beginRun mode s) := by
  obtain ⟨hmem, hlen, -, -, -, -, hwaited⟩ := h
  have hselected : (beginRun mode s).ditL = selectedDit mode (beginRun mode s) := by
    cases mode <;> rfl
  exact ⟨hmem, hlen, by simp [validPresents], fun _ => ⟨hw, hselected, rfl, rfl⟩,
    fun _ => positionMatches_of_start rfl rfl, by simp [statusMatches], hwaited⟩

/-- Every command keeps the invariant (43_commands.md R183-R190). -/
theorem RunInvariant.after_exec {par : Config.Params} {i : Instr} {s t : State} (h : RunInvariant par s)
    (he : exec i s = .next t) : RunInvariant par t := by
  cases hp : s.phase with
  | run =>
    rw [exec_run hp] at he
    cases i <;> cases he <;> exact h
  | idle =>
    obtain ⟨hmem, hlen, hvalid, hstatus, hwaited⟩ := (runInvariant_idle_iff hp).mp h
    rw [exec_idle hp] at he
    cases i with
    | nop | clrerr => cases he; exact h
    | wrmsg index byte =>
      simp only [indexInRange_true, if_true] at he
      cases he
      exact (runInvariant_idle_iff
        (s := { s with msg := Memory.write s.msg index.toNat byte }) hp).mpr
        ⟨Memory.wf_write byte hmem index.isLt, hlen, hvalid, hstatus, hwaited⟩
    | setlen len =>
      by_cases hr : lenInRange len = true
      · simp only [hr, if_true] at he
        cases he
        exact (runInvariant_idle_iff (s := { s with len := len }) hp).mpr
          ⟨hmem, by simpa [lenInRange] using hr, hvalid, hstatus, hwaited⟩
      · simp only [hr] at he
        cases he
        exact h
    | setditcw dit =>
      cases he
      exact (runInvariant_idle_iff (s := { s with ditCw := dit }) hp).mpr
        ⟨hmem, hlen, hvalid, hstatus, hwaited⟩
    | setditqrss dit =>
      cases he
      exact (runInvariant_idle_iff (s := { s with ditQrss := dit }) hp).mpr
        ⟨hmem, hlen, hvalid, hstatus, hwaited⟩
    | start mode =>
      cases hw : firstUnwritten s with
      | some index => simp [hw] at he
      | none =>
        simp only [hw] at he
        cases he
        exact h.after_beginRun hw mode

theorem RunInvariant.after_commandSide {par : Config.Params} {input : EdgeInput} {s t : State}
    (h : RunInvariant par s) (hc : commandSide input s = .next t) : RunInvariant par t := by
  unfold commandSide acceptWord at hc
  split at hc
  · split at hc
    · exact h.after_exec hc
    · cases hc; exact h
  · cases hc; exact h

/-! ### The symbol side of an edge in RUN

The command of the edge has left `reject c pre` (`commandSide_run`). -/

/-- A transfer moves `P` to the next symbol and records the one at `P` (43_commands.md R200). `P`
does not wrap, since `SEQ` is short enough. -/
theorem RunInvariant.after_transferSymbol {par : Config.Params} {pre : State} {sym : TimedSymbol}
    (h : RunInvariant par pre) (hv : pre.valid = true) (hs : symbolAtP par pre = some sym)
    (follow : Bool) (c : CmdErr) :
    RunInvariant par
      (transferSymbol sym (anotherFollows par pre && follow) pre (reject c pre)) := by
  have hlat := h.latMax_pos
  obtain ⟨hmem, hlen, hvalid, hinputs, hpos, hstatus, -⟩ := h
  obtain ⟨hphase, -⟩ := hvalid hv
  obtain ⟨L, hseq, hsym⟩ := symbolAtP_eq_some_iff.mp hs
  obtain ⟨hlt, -⟩ := List.getElem?_eq_some_iff.mp hsym
  obtain ⟨-, htaken⟩ := (positionMatches_of_ok hseq).mp (hpos hphase)
  set t := transferSymbol sym (anotherFollows par pre && follow) pre (reject c pre) with ht
  have htseq : seq par t = .ok L := hseq
  have hp : t.p.toNat = pre.p.toNat + 1 := by
    have hL := seq_length_le hseq
    simp only [Config.msgMax] at hlen
    simp only [ht, transferSymbol_p, BitVec.toNat_add]
    rw [show (1 : BitVec 12).toNat = 1 from rfl]
    omega
  refine ⟨hmem, hlen, fun htv => ⟨hphase, ?_⟩, hinputs, fun _ => ?_, hstatus, hlat⟩
  · obtain ⟨hfollows, -⟩ := Bool.and_eq_true_iff.mp htv
    obtain ⟨L', hseq', hlt'⟩ := (anotherFollows_iff par pre).mp hfollows
    obtain rfl : L = L' := by simpa [hseq] using hseq'
    simp [symbolAtP, htseq, hp, hlt']
  · rw [positionMatches_of_ok htseq, hp]
    exact ⟨hlt, by simp [ht, htaken, List.take_add_one, hsym]⟩

theorem RunInvariant.after_present {par : Config.Params} {pre : State} (h : RunInvariant par pre)
    (he : presentEnabled par pre = true) (c : CmdErr) :
    RunInvariant par (present (reject c pre)) := by
  obtain ⟨hphase, -, hsym⟩ := (presentEnabled_iff par pre).mp he
  have hlat := h.latMax_pos
  obtain ⟨hmem, hlen, -, hinputs, hpos, hstatus, -⟩ := h
  exact ⟨hmem, hlen, fun _ => ⟨hphase, hsym⟩, hinputs, hpos, hstatus, hlat⟩

/-- A report over clear status fields, with `DONE` set, leaves them matching (60_exceptions.md R221). -/
theorem statusMatches_reportResult {s : State} (r : EncodeResult) (hd : s.done = true)
    (he : s.encErr = .noError) (hs : statusMatches s) : statusMatches (reportResult r s) := by
  have hzero := hs.2
  simp only [he, ne_eq, reduceCtorEq, not_false_eq_true, true_imp_iff] at hzero
  unfold reportResult
  split <;> simp [statusMatches, hd, he, hzero]

theorem RunInvariant.after_finish {par : Config.Params} {pre : State} (h : RunInvariant par pre)
    (he : finishEnabled par pre = true) (c : CmdErr) :
    RunInvariant par (finish par pre (reject c pre)) := by
  obtain ⟨hphase, hvalid, -⟩ := (finishEnabled_iff par pre).mp he
  have hlat := h.latMax_pos
  obtain ⟨hmem, hlen, -, hinputs, -, ⟨-, hfields⟩, -⟩ := h
  obtain ⟨-, -, -, hnoError⟩ := hinputs hphase
  refine (runInvariant_idle_iff (by simp)).mpr ⟨by simpa using hmem, by simpa using hlen,
    by simpa using hvalid, ?_, by simpa using hlat⟩
  exact statusMatches_reportResult _ rfl hnoError ⟨fun _ => rfl, hfields⟩

theorem RunInvariant.after_stall {par : Config.Params} {choice : Choice} {pre : State}
    (h : RunInvariant par pre) (hd : stepDue par choice pre = false) (c : CmdErr) :
    RunInvariant par (stall pre (reject c pre)) := by
  have hnotDue : ¬(choice.takeStep = true ∨ par.latMax ≤ pre.waited + 1) := by
    simp [← stepDue_iff, hd]
  exact ((runInvariant_reject_iff par c pre).mpr h).setWaited (by omega)

theorem RunInvariant.after_symbolSide_run {par : Config.Params} {choice : Choice} {ready : Bool}
    {pre t : State} {c : CmdErr} (h : RunInvariant par pre)
    (ht : symbolSide par choice ready pre (reject c pre) = .next t) : RunInvariant par t := by
  rcases symbolSide_next ht with ⟨hv, -, sym, hs, rfl⟩ | ⟨he, -, rfl⟩ | ⟨he, -, rfl⟩ |
    ⟨-, hd, rfl⟩ | ⟨-, -, rfl⟩
  · exact h.after_transferSymbol hv hs choice.follow c
  · exact h.after_present he c
  · exact h.after_finish he c
  · exact h.after_stall hd c
  · exact ((runInvariant_reject_iff par c pre).mpr h).after_quiet

/-- Every edge keeps the invariant: a reset edge establishes it, in RUN the command writes `CMD_ERR`
alone and the symbol side keeps it, in IDLE the command keeps it and the symbol side does nothing. -/
theorem RunInvariant.after_edgeWith {par : Config.Params} {choice : Choice} {s t : State}
    (h : RunInvariant par s) (ht : edgeWith par choice s = .next t) : RunInvariant par t := by
  have hpre : RunInvariant par (consumeInput s) := (runInvariant_consumeInput_iff par s).mpr h
  rcases edgeWith_next ht with ⟨-, rfl⟩ | ⟨-, u, hu, hside⟩
  · exact runInvariant_resetEdge h.latMax_pos _
  · cases hp : s.phase with
    | run =>
      obtain ⟨c, hc⟩ := commandSide_run (s := consumeInput s) hp (nextInput s)
      obtain rfl : reject c (consumeInput s) = u := by simpa [hc] using hu
      exact hpre.after_symbolSide_run hside
    | idle =>
      rw [symbolSide_idle (s := consumeInput s) u hp (hpre.idle_valid hp)] at hside
      cases hside
      exact (hpre.after_commandSide hu).after_quiet

/-! ## START -/

/-- START finds the lowest unwritten byte below `LEN` (10_state.md R36). -/
theorem firstUnwritten_eq_some_iff (s : State) (a : Nat) :
    firstUnwritten s = some a ↔ a < s.len.toNat ∧ Memory.written s.msg a = false ∧
      ∀ b < a, Memory.written s.msg b = true := by
  simp [firstUnwritten, List.find?_range_eq_some, and_left_comm]

theorem exec_start_of_unwritten {s : State} {a : Nat} (hp : s.phase = .idle)
    (hf : firstUnwritten s = some a) (mode : KeyingMode) :
    exec (.start mode) s = .refused (.unwrittenMessageByte a) := by simp [exec_idle hp, hf]

theorem exec_start_of_written {s : State} (hp : s.phase = .idle) (hw : messageWritten s)
    (mode : KeyingMode) : exec (.start mode) s = .next (beginRun mode s) := by
  simp [exec_idle hp, (firstUnwritten_eq_none_iff s).mpr hw]

/-- Equal reads below an equal `LEN` give the same message. -/
theorem message_congr {s₁ s₂ : State} (hlen : s₁.len = s₂.len)
    (hread : ∀ a < s₁.len.toNat, Memory.read s₁.msg a = Memory.read s₂.msg a) :
    message s₁ = message s₂ := by
  unfold message
  rw [← hlen]
  refine List.map_congr_left fun a ha => ?_
  simp [msgRead, hread a (List.mem_range.mp ha)]

/-! ## `ENC_ERR` over an edge -/

theorem exec_encErr {i : Instr} {s t : State} (h : exec i s = .next t) :
    t.encErr = s.encErr ∨ t.encErr = .noError := by
  cases hp : s.phase with
  | run =>
    rw [exec_run hp] at h
    cases i <;> cases h <;> exact .inl rfl
  | idle =>
    rw [exec_idle hp] at h
    cases i with
    | start mode =>
      cases hw : firstUnwritten s with
      | some index => simp [hw] at h
      | none => simp only [hw] at h; cases h; exact .inr rfl
    | wrmsg index byte => simp only [indexInRange_true, if_true] at h; cases h; exact .inl rfl
    | setlen len => dsimp only at h; split at h <;> cases h <;> exact .inl rfl
    | nop | setditcw dit | setditqrss dit | clrerr => cases h; exact .inl rfl

theorem commandSide_encErr {input : EdgeInput} {s t : State} (h : commandSide input s = .next t) :
    t.encErr = s.encErr ∨ t.encErr = .noError := by
  unfold commandSide acceptWord at h
  split at h
  · split at h
    · exact exec_encErr h
    · cases h; exact .inl rfl
  · cases h; exact .inl rfl

theorem finish_encErr_ne_unsupported {par : Config.Params} {pre s : State}
    (hpar : par.skipUnsupported = true) (hs : s.encErr ≠ .unsupportedChar) :
    (finish par pre s).encErr ≠ .unsupportedChar := by
  unfold finish reportResult
  split
  · exact hs
  · simp
  · rename_i k b hseq
    exact absurd hseq (seq_ne_unsupported hpar pre k b)

theorem symbolSide_encErr_ne_unsupported {par : Config.Params} {choice : Choice} {ready : Bool}
    {pre u t : State} (hpar : par.skipUnsupported = true) (hu : u.encErr ≠ .unsupportedChar)
    (h : symbolSide par choice ready pre u = .next t) : t.encErr ≠ .unsupportedChar := by
  rcases symbolSide_next h with ⟨-, -, sym, -, rfl⟩ | ⟨-, -, rfl⟩ | ⟨-, -, rfl⟩ |
    ⟨-, -, rfl⟩ | ⟨-, -, rfl⟩
  · exact hu
  · exact hu
  · exact finish_encErr_ne_unsupported hpar hu
  · exact hu
  · exact hu

/-- Under the skip policy no edge makes `ENC_ERR` UNSUPPORTED_CHAR (60_exceptions.md R222). -/
theorem edgeWith_encErr_ne_unsupported {par : Config.Params} {choice : Choice} {s t : State}
    (hpar : par.skipUnsupported = true) (hs : s.encErr ≠ .unsupportedChar)
    (h : edgeWith par choice s = .next t) : t.encErr ≠ .unsupportedChar := by
  rcases edgeWith_next h with ⟨-, rfl⟩ | ⟨-, u, hu, hside⟩
  · simp [resetEdge, State.reset]
  · refine symbolSide_encErr_ne_unsupported hpar ?_ hside
    rcases commandSide_encErr hu with he | he
    · simpa [he] using hs
    · simp [he]

/-! ## The output ports -/

/-- `sym_word` is the symbol at `P` while it is presented (10_state.md R29). -/
theorem symWordPort_of_valid {par : Config.Params} {s : State} {sym : TimedSymbol}
    (hv : s.valid = true) (hs : symbolAtP par s = some sym) : symWordPort par s = sym.word := by
  simp [symWordPort, hv, hs]

/-- A consumer reads `EncodingFailed` exactly after an unsupported byte (60_exceptions.md R222). -/
theorem encodingFailed_iff (rst : Bool) (s : State) :
    encodingFailed (outputs rst s) = true ↔ s.done = true ∧ s.encErr = .unsupportedChar := by
  cases he : s.encErr <;> simp [encodingFailed, outputs, he, EncErr.code]

/-! ## The statements -/

/-- Settles O29: a reset edge establishes the invariant, every command keeps it, and the symbol side
keeps it in each of its cases. -/
theorem stepKeepsTheInvariant : Obligations.StepKeepsTheInvariant := by
  unfold Obligations.StepKeepsTheInvariant
  exact ⟨fun s t h ht => h.after_edgeWith (step_eq s ▸ ht),
    fun par choice s t h ht => h.after_edgeWith ht⟩

/-- Settles O18, by the law of WRITTEN after a write and by what START's scan finds. -/
theorem startRefusesAnUnwrittenByte : Obligations.StartRefusesAnUnwrittenByte := by
  unfold Obligations.StartRefusesAnUnwrittenByte
  refine ⟨fun s t index byte hp h a => ?_, fun a s => rfl, fun s mode a hp ha hu hlow => ?_⟩
  · simp only [exec_idle hp, indexInRange_true, if_true] at h
    cases h
    exact Memory.written_write s.msg index.toNat a byte
  · exact exec_start_of_unwritten hp ((firstUnwritten_eq_some_iff s a).mpr ⟨ha, hu, hlow⟩) mode

/-- Settles O34: both STARTs are accepted over the same message, and START writes every element the
answers could still differ in. -/
theorem startIsIndependentOfHistory : Obligations.StartIsIndependentOfHistory := by
  unfold Obligations.StartIsIndependentOfHistory
  intro par mode s₁ s₂ hp₁ hp₂ hw₁ hlen hread hdit
  have hw₂ : messageWritten s₂ := fun a ha => by
    rw [← hlen] at ha
    rw [Memory.written, ← hread a ha]
    exact hw₁ a ha
  refine ⟨beginRun mode s₁, beginRun mode s₂, exec_start_of_written hp₁ hw₁ mode,
    exec_start_of_written hp₂ hw₂ mode, ?_, ?_⟩
  · have hmessage : message (beginRun mode s₁) = message (beginRun mode s₂) :=
      message_congr hlen hread
    simp [seq, hmessage, hdit]
  · simp [beginRun, clearStatus, hlen, hdit]

/-- Settles O1: the values of R37's table, and a START whose selected dit is 0. -/
theorem resetHasTheSpecValues : Obligations.ResetHasTheSpecValues := by
  unfold Obligations.ResetHasTheSpecValues
  refine ⟨rfl, rfl, rfl, rfl, rfl, rfl, rfl, rfl, rfl, rfl, rfl, rfl, rfl, fun a => rfl,
    fun mode => ⟨beginRun mode State.reset,
      exec_start_of_written rfl (fun _ ha => absurd ha (Nat.not_lt_zero _)) mode, ?_⟩⟩
  have hseq : seq Config.params (beginRun mode State.reset) = .err .invalidDit :=
    seq_of_ditL_zero (by cases mode <;> rfl)
  simp [presentEnabled, finishEnabled, finish, reportResult, busy, hseq]

/-- Settles O28, from the reset values. -/
theorem resetMeetsTheInvariant : Obligations.ResetMeetsTheInvariant := by
  unfold Obligations.ResetMeetsTheInvariant
  exact ⟨runInvariant_reset (Nat.succ_pos _), fun par h => runInvariant_reset h⟩

/-- Settles O59: the ports are read off the state, and under the skip policy FINISH has no unsupported
byte to report. -/
theorem outputsShowTheState : Obligations.OutputsShowTheState := by
  unfold Obligations.OutputsShowTheState
  refine ⟨fun rst s => ⟨rfl, rfl, busy_iff s, rfl, ?_, rfl, rfl, ?_, fun L sym hv hseq hsym => ?_,
    encodingFailed_iff rst s⟩, fun par choice s t hpar hs h => ?_⟩
  · cases he : s.encErr <;> simp [outputs, he, EncErr.code]
  · cases he : s.cmdErr <;> simp [outputs, he, CmdErr.code]
  · exact symWordPort_of_valid hv (symbolAtP_eq_some_iff.mpr ⟨L, hseq, hsym⟩)
  · exact edgeWith_encErr_ne_unsupported hpar hs h

end Sys2Proof.Machine

/-! The statements about the encodings: the command word with its decoder and its illegal words, the
symbol word, and the assembler. -/

namespace Sys2Proof

/-! ## The decoder by opcode (30_encoding.md R71, R72) -/

theorem decode_of_opField_nop {w : Word} (h : opField w = 0x0) :
    decode w = requireZero (field w 0 28) (opField w) .nop := by simp [decode, h]

theorem decode_of_opField_wrmsg {w : Word} (h : opField w = 0x1) :
    decode w = requireZero (field w 16 12) (opField w) (.wrmsg (field w 8 8) (field w 0 8)) := by
  simp [decode, h]

theorem decode_of_opField_setlen {w : Word} (h : opField w = 0x2) :
    decode w = requireZero (field w 9 19) (opField w) (.setlen (field w 0 9)) := by simp [decode, h]

theorem decode_of_opField_setditcw {w : Word} (h : opField w = 0x3) :
    decode w = .ok (.setditcw (field w 0 28)) := by simp [decode, h]

theorem decode_of_opField_setditqrss {w : Word} (h : opField w = 0x4) :
    decode w = .ok (.setditqrss (field w 0 28)) := by simp [decode, h]

theorem decode_of_opField_start {w : Word} (h : opField w = 0x5) :
    decode w = requireZero (field w 1 27) (opField w) (.start (modeOfBit (field w 0 1))) := by
  simp [decode, h]

theorem decode_of_opField_clrerr {w : Word} (h : opField w = 0x6) :
    decode w = requireZero (field w 0 28) (opField w) .clrerr := by simp [decode, h]

theorem decode_of_opField_reserved {w : Word} (h : 7 ≤ (opField w).toNat) :
    decode w = .error (.reservedOpcode (opField w)) := by
  have hne : ∀ op : BitVec 4, op.toNat < 7 → ¬opField w = op := by rintro op hop rfl; omega
  simp (disch := decide) only [decode, hne, if_false]

/-- The opcodes of the seven commands, and the reserved ones (30_encoding.md R71, R75). -/
theorem opField_cases (w : Word) :
    opField w = 0x0 ∨ opField w = 0x1 ∨ opField w = 0x2 ∨ opField w = 0x3 ∨ opField w = 0x4 ∨
      opField w = 0x5 ∨ opField w = 0x6 ∨ 7 ≤ (opField w).toNat := by
  generalize opField w = op
  revert op
  decide

/-! ## A word is its fields in order, by format (30_encoding.md R72) -/

theorem append_fields_payload (w : Word) : opField w ++ field w 0 28 = w := by
  apply BitVec.eq_of_toNat_eq
  simp only [append_toNat, opField_toNat, field_toNat]
  omega

theorem append_fields_msg (w : Word) :
    opField w ++ field w 16 12 ++ field w 8 8 ++ field w 0 8 = w := by
  apply BitVec.eq_of_toNat_eq
  simp only [append_toNat, opField_toNat, field_toNat]
  omega

theorem append_fields_len (w : Word) : opField w ++ field w 9 19 ++ field w 0 9 = w := by
  apply BitVec.eq_of_toNat_eq
  simp only [append_toNat, opField_toNat, field_toNat]
  omega

theorem append_fields_start (w : Word) : opField w ++ field w 1 27 ++ field w 0 1 = w := by
  apply BitVec.eq_of_toNat_eq
  simp only [append_toNat, opField_toNat, field_toNat]
  omega

/-! ## Decoding and encoding are inverse -/

theorem field_eq_of_toNat {w : Word} {lo width : Nat} {v : BitVec width}
    (h : w.toNat / 2 ^ lo % 2 ^ width = v.toNat) : field w lo width = v :=
  BitVec.eq_of_toNat_eq ((field_toNat w lo width).trans h)

/-- A word that decodes is the encoding of its command: its fields, put together from bit 31 down, are
the word. -/
theorem encode_of_decode_eq_ok {w : Word} {i : Instr} (h : decode w = .ok i) : encode i = w := by
  rcases opField_cases w with hop | hop | hop | hop | hop | hop | hop | hop
  · rw [decode_of_opField_nop hop, requireZero_eq_ok_iff] at h
    obtain ⟨hz, rfl⟩ := h
    calc encode .nop = opField w ++ field w 0 28 := by rw [hop, hz]; rfl
      _ = w := append_fields_payload w
  · rw [decode_of_opField_wrmsg hop, requireZero_eq_ok_iff] at h
    obtain ⟨hz, rfl⟩ := h
    calc encode (.wrmsg (field w 8 8) (field w 0 8))
        = opField w ++ field w 16 12 ++ field w 8 8 ++ field w 0 8 := by rw [hop, hz]; rfl
      _ = w := append_fields_msg w
  · rw [decode_of_opField_setlen hop, requireZero_eq_ok_iff] at h
    obtain ⟨hz, rfl⟩ := h
    calc encode (.setlen (field w 0 9)) = opField w ++ field w 9 19 ++ field w 0 9 := by
          rw [hop, hz]; rfl
      _ = w := append_fields_len w
  · rw [decode_of_opField_setditcw hop] at h
    cases h
    calc encode (.setditcw (field w 0 28)) = opField w ++ field w 0 28 := by rw [hop]; rfl
      _ = w := append_fields_payload w
  · rw [decode_of_opField_setditqrss hop] at h
    cases h
    calc encode (.setditqrss (field w 0 28)) = opField w ++ field w 0 28 := by rw [hop]; rfl
      _ = w := append_fields_payload w
  · rw [decode_of_opField_start hop, requireZero_eq_ok_iff] at h
    obtain ⟨hz, rfl⟩ := h
    calc encode (.start (modeOfBit (field w 0 1)))
        = opField w ++ field w 1 27 ++ field w 0 1 := by rw [hop, hz, encode, bit_modeOfBit]; rfl
      _ = w := append_fields_start w
  · rw [decode_of_opField_clrerr hop, requireZero_eq_ok_iff] at h
    obtain ⟨hz, rfl⟩ := h
    calc encode .clrerr = opField w ++ field w 0 28 := by rw [hop, hz]; rfl
      _ = w := append_fields_payload w
  · rw [decode_of_opField_reserved hop] at h
    cases h

theorem opField_encode (i : Instr) : opField (encode i) = i.opcode := by
  cases i with
  | nop => exact Laws.OpcodeField.nop
  | wrmsg index byte => exact Laws.OpcodeField.wrmsg index byte
  | setlen len => exact Laws.OpcodeField.setlen len
  | setditcw dit => exact Laws.OpcodeField.setditcw dit
  | setditqrss dit => exact Laws.OpcodeField.setditqrss dit
  | start mode => exact Laws.OpcodeField.start mode
  | clrerr => exact Laws.OpcodeField.clrerr

theorem decode_encode (i : Instr) : decode (encode i) = .ok i := by
  have hop := opField_encode i
  cases i with
  | nop => rfl
  | wrmsg index byte =>
    have hi := index.isLt
    have hb := byte.isLt
    rw [decode_of_opField_wrmsg hop, requireZero_eq_ok_iff, field_eq_zero_iff,
      field_eq_of_toNat (v := index) (by rw [encode_wrmsg_toNat]; omega),
      field_eq_of_toNat (v := byte) (by rw [encode_wrmsg_toNat]; omega), encode_wrmsg_toNat]
    exact ⟨by omega, rfl⟩
  | setlen len =>
    have hl := len.isLt
    rw [decode_of_opField_setlen hop, requireZero_eq_ok_iff, field_eq_zero_iff,
      field_eq_of_toNat (v := len) (by rw [encode_setlen_toNat]; omega), encode_setlen_toNat]
    exact ⟨by omega, rfl⟩
  | setditcw dit =>
    have hd := dit.isLt
    rw [decode_of_opField_setditcw hop,
      field_eq_of_toNat (v := dit) (by rw [encode_setditcw_toNat]; omega)]
  | setditqrss dit =>
    have hd := dit.isLt
    rw [decode_of_opField_setditqrss hop,
      field_eq_of_toNat (v := dit) (by rw [encode_setditqrss_toNat]; omega)]
  | start mode => cases mode <;> rfl
  | clrerr => rfl

theorem decode_eq_ok_iff (w : Word) (i : Instr) : decode w = .ok i ↔ encode i = w :=
  ⟨encode_of_decode_eq_ok, fun h => h ▸ decode_encode i⟩

end Sys2Proof

namespace Sys2Proof.Machine

/-! ## Illegal words (30_encoding.md R75) -/

theorem illegalWord_iff (w : Word) :
    illegalWord w = true ↔ 7 ≤ (opField w).toNat ∨ w &&& mustBeZero (opField w) ≠ 0 := by
  have hshift : (w >>> 28).toNat = (opField w).toNat := by
    rw [opField_toNat, BitVec.toNat_ushiftRight, Nat.shiftRight_eq_div_pow]
  simp [illegalWord, hshift]

theorem and_fieldMask_eq_zero_iff (w : Word) {lo width : Nat} (h : lo + width ≤ 32) :
    w &&& fieldMask lo width = 0 ↔ field w lo width = 0 := by
  simpa using and_fieldMask_eq_iff w h 0

theorem requireZero_eq_error_iff {n : Nat} (rz : BitVec n) (op : BitVec 4) (i : Instr) :
    (∃ e, requireZero rz op i = .error e) ↔ rz ≠ 0 := by
  unfold requireZero
  split <;> simp_all

/-- The decoder's check of one field is the check of the format's must-be-zero bits. -/
theorem requireZero_eq_error_iff_illegalWord {w : Word} {op : BitVec 4} {lo width : Nat}
    (hop : opField w = op) (hfits : lo + width ≤ 32) (hlegal : op.toNat < 7)
    (hmask : mustBeZero op = fieldMask lo width) (i : Instr) :
    (∃ e, requireZero (field w lo width) (opField w) i = .error e) ↔ illegalWord w = true := by
  rw [requireZero_eq_error_iff, illegalWord_iff, hop, hmask, ne_eq, ne_eq,
    and_fieldMask_eq_zero_iff w hfits]
  simp [hlegal]

theorem decode_eq_error_iff (w : Word) : (∃ e, decode w = .error e) ↔ illegalWord w = true := by
  rcases opField_cases w with hop | hop | hop | hop | hop | hop | hop | hop
  · rw [decode_of_opField_nop hop]
    exact requireZero_eq_error_iff_illegalWord hop (by decide) (by decide) rfl _
  · rw [decode_of_opField_wrmsg hop]
    exact requireZero_eq_error_iff_illegalWord hop (by decide) (by decide) rfl _
  · rw [decode_of_opField_setlen hop]
    exact requireZero_eq_error_iff_illegalWord hop (by decide) (by decide) rfl _
  · simp [decode_of_opField_setditcw hop, illegalWord_iff, hop, mustBeZero]
  · simp [decode_of_opField_setditqrss hop, illegalWord_iff, hop, mustBeZero]
  · rw [decode_of_opField_start hop]
    exact requireZero_eq_error_iff_illegalWord hop (by decide) (by decide) rfl _
  · rw [decode_of_opField_clrerr hop]
    exact requireZero_eq_error_iff_illegalWord hop (by decide) (by decide) rfl _
  · simp [decode_of_opField_reserved hop, illegalWord_iff, hop]

theorem illegalWord_eq_false_iff (w : Word) :
    illegalWord w = false ↔ ∃ i, decode w = .ok i := by
  rw [← Bool.not_eq_true, ← decode_eq_error_iff]
  cases decode w <;> simp

/-! ## The match and mask table (30_encoding.md R76) -/

/-- A row's mask is the opcode's bits and the must-be-zero bits, and its match is the opcode in its
place. -/
theorem mask_and_match_of_mem {r : OpcodeRow} (h : r ∈ opcodeRows) :
    r.mask = fieldMask 28 4 ||| mustBeZero r.opcode ∧
      r.matchWord = r.opcode.setWidth 32 <<< 28 ∧
      r.matchWord &&& fieldMask 28 4 = r.matchWord ∧ r.matchWord &&& mustBeZero r.opcode = 0 ∧
      r.opcode.toNat < 7 := by
  revert r
  decide

theorem eq_of_opcode_eq {r r' : OpcodeRow} (h : r ∈ opcodeRows) (h' : r' ∈ opcodeRows)
    (he : r.opcode = r'.opcode) : r = r' := by
  have hinj : ∀ r ∈ opcodeRows, ∀ r' ∈ opcodeRows, r.opcode = r'.opcode → r = r' := by decide
  exact hinj r h r' h' he

theorem exists_opcodeRow (i : Instr) : ∃ r ∈ opcodeRows, r.opcode = i.opcode := by
  cases i <;> simp [opcodeRows, Instr.opcode]

theorem or_and_cancel_left {n : Nat} (a b : BitVec n) : (a ||| b) &&& a = a := by
  ext i hi
  rw [BitVec.getElem_and, BitVec.getElem_or]
  exact Bool.and_eq_right_iff_imp.mpr fun h => by rw [h, Bool.true_or]

/-- A value that lies within `a` and outside `b` is the word's under both masks exactly when it is the
word's under `a` and the word is zero under `b`. -/
theorem and_or_eq_iff {n : Nat} {w a b m : BitVec n} (ha : m &&& a = m) (hb : m &&& b = 0) :
    w &&& (a ||| b) = m ↔ w &&& a = m ∧ w &&& b = 0 := by
  constructor
  · rintro rfl
    rw [BitVec.and_assoc, or_and_cancel_left] at ha
    rw [BitVec.and_assoc, BitVec.or_comm, or_and_cancel_left] at hb
    exact ⟨ha, hb⟩
  · rintro ⟨h₁, h₂⟩
    rw [BitVec.and_or_distrib_left, h₁, h₂]
    exact BitVec.or_zero

theorem selects_iff {r : OpcodeRow} (h : r ∈ opcodeRows) (w : Word) :
    r.selects w = true ↔ opField w = r.opcode ∧ illegalWord w = false := by
  obtain ⟨hmask, hmatch, hopcode, hzero, hop⟩ := mask_and_match_of_mem h
  have hfield : w &&& fieldMask 28 4 = r.matchWord ↔ opField w = r.opcode := by
    rw [hmatch]
    exact and_fieldMask_eq_iff w (by decide) r.opcode
  calc r.selects w = true
    _ ↔ w &&& (fieldMask 28 4 ||| mustBeZero r.opcode) = r.matchWord := by
      simp [OpcodeRow.selects, hmask]
    _ ↔ opField w = r.opcode ∧ w &&& mustBeZero r.opcode = 0 := by
      rw [and_or_eq_iff hopcode hzero, hfield]
    _ ↔ opField w = r.opcode ∧ illegalWord w = false := by
      refine and_congr_right fun he => ?_
      rw [← Bool.not_eq_true, illegalWord_iff, he]
      simp [hop]

theorem selects_iff_decode {r : OpcodeRow} (h : r ∈ opcodeRows) (w : Word) :
    r.selects w = true ↔ ∃ i, decode w = .ok i ∧ i.opcode = r.opcode := by
  have hopcode : ∀ i, decode w = .ok i → i.opcode = opField w := fun i hi => by
    rw [← encode_of_decode_eq_ok hi, opField_encode]
  rw [selects_iff h, illegalWord_eq_false_iff]
  constructor
  · rintro ⟨hop, i, hi⟩
    exact ⟨i, hi, (hopcode i hi).trans hop⟩
  · rintro ⟨i, hi, hop⟩
    exact ⟨(hopcode i hi).symm.trans hop, i, hi⟩

theorem selects_unique {r r' : OpcodeRow} {w : Word} (h : r ∈ opcodeRows) (h' : r' ∈ opcodeRows)
    (hs : r.selects w = true) (hs' : r'.selects w = true) : r = r' := by
  obtain ⟨hop, -⟩ := (selects_iff h w).mp hs
  obtain ⟨hop', -⟩ := (selects_iff h' w).mp hs'
  exact eq_of_opcode_eq h h' (hop.symm.trans hop')

/-! ## The symbol word (30_encoding.md R80-R82) -/

theorem word_kind (x : TimedSymbol) : x.word.extractLsb' 0 3 = kindCode x.kind :=
  BitVec.extractLsb'_append_eq_right

theorem word_units (x : TimedSymbol) : x.word.extractLsb' 3 3 = x.units := by
  have hu := x.units.isLt
  have hk := (kindCode x.kind).isLt
  apply BitVec.eq_of_toNat_eq
  rw [BitVec.extractLsb'_toNat, Nat.shiftRight_eq_div_pow, word_toNat]
  omega

theorem word_carrier (x : TimedSymbol) : x.word.getLsbD 6 = x.carrier := by
  simp only [TimedSymbol.word, BitVec.getLsbD_append, BitVec.getLsbD_ofBool]
  rfl

theorem word_tone (x : TimedSymbol) : x.word.getLsbD 7 = x.tone := by
  simp only [TimedSymbol.word, BitVec.getLsbD_append, BitVec.getLsbD_ofBool]
  rfl

theorem word_last (x : TimedSymbol) : x.word.getLsbD 8 = x.last := by
  simp only [TimedSymbol.word, BitVec.getLsbD_append, BitVec.getLsbD_ofBool]
  rfl

theorem word_durMs (x : TimedSymbol) : x.word.extractLsb' 9 32 = x.durMs := by
  have hu := x.units.isLt
  have hk := (kindCode x.kind).isLt
  have hl := x.last.toNat_lt
  have ht := x.tone.toNat_lt
  have hc := x.carrier.toNat_lt
  apply BitVec.eq_of_toNat_eq
  rw [BitVec.extractLsb'_toNat, Nat.shiftRight_eq_div_pow, word_toNat]
  omega

theorem exists_timedSymbol_of_mem_key {ks : List MorseSymbol} {m : KeyingMode} {d : Dit}
    {x : TimedSymbol} (h : x ∈ key ks m d) : ∃ kind last, x = timedSymbol kind m d last := by
  obtain ⟨i, hi, rfl⟩ := List.mem_iff_getElem.mp h
  exact ⟨_, _, key_getElem ks m d i hi⟩

theorem units_of_mem_encodeMessage {par : Config.Params} {msg : List Byte} {m : KeyingMode} {d : Dit}
    {L : List TimedSymbol} (h : encodeMessage par msg m d = .ok L) {x : TimedSymbol} (hx : x ∈ L) :
    x.units = unitsOf x.kind := by
  obtain ⟨-, -, rfl⟩ := encodeMessage_eq_ok h
  obtain ⟨kind, last, rfl⟩ := exists_timedSymbol_of_mem_key hx
  rfl

/-! ## The assembler -/

theorem wellFormed_stmt (i : Instr) : i.stmt.wellFormed = true := by
  cases i with
  | nop => exact Laws.Fits.nop
  | wrmsg index byte => exact Laws.Fits.wrmsg index byte
  | setlen len => exact Laws.Fits.setlen len
  | setditcw dit => exact Laws.Fits.setditcw dit
  | setditqrss dit => exact Laws.Fits.setditqrss dit
  | start mode => exact Laws.Fits.start mode
  | clrerr => exact Laws.Fits.clrerr

theorem expand_stmt (i : Instr) : i.stmt.expand = [i] := by
  cases i with
  | start mode => cases mode <;> rfl
  | nop | clrerr => rfl
  | wrmsg index byte => simp [Instr.stmt, Asm.Stmt.expand]
  | setlen len => simp [Instr.stmt, Asm.Stmt.expand]
  | setditcw dit | setditqrss dit => simp [Instr.stmt, Asm.Stmt.expand]

theorem assemble_of_wellFormed {st : Asm.Stmt} (h : st.wellFormed = true) :
    st.assemble = .ok st.expand := by simp [Asm.Stmt.assemble, h]

theorem assemble_of_not_wellFormed {st : Asm.Stmt} (h : st.wellFormed = false) :
    st.assemble = .error .operandDoesNotFit := by simp [Asm.Stmt.assemble, h]

/-! ## LOADMSG (30_encoding.md R85) -/

/-- The buffer with `text` stored from index `k` on. -/
def storeText (m : Memory) : List Byte → Nat → Memory
  | [], _ => m
  | c :: rest, k => storeText (Memory.write m k c) rest (k + 1)

theorem execAll_loadWrites {s : State} (hp : s.phase = .idle) (text : List Byte) {k : Nat}
    (hk : k + text.length ≤ Config.msgMax) :
    execAll (Asm.loadWrites text k) s = .next { s with msg := storeText s.msg text k } := by
  induction text generalizing s k with
  | nil => rfl
  | cons c rest ih =>
    simp only [Config.msgMax, List.length_cons] at hk ih
    have hindex : (BitVec.ofNat 8 k).toNat = k := by
      rw [BitVec.toNat_ofNat, Nat.mod_eq_of_lt (by omega)]
    have hfirst : exec (.wrmsg (BitVec.ofNat 8 k) c) s =
        .next { s with msg := Memory.write s.msg k c } := by simp [exec_idle hp, hindex]
    rw [Asm.loadWrites, execAll, hfirst, andThen_of_next]
    exact ih (s := { s with msg := Memory.write s.msg k c }) hp (by omega)

theorem read_storeText (m : Memory) (text : List Byte) (k a : Nat) :
    Memory.read (storeText m text k) a =
      if k ≤ a ∧ a < k + text.length then text[a - k]? else Memory.read m a := by
  induction text generalizing m k with
  | nil => exact (if_neg (by simp)).symm
  | cons c rest ih =>
    rw [storeText, ih, Memory.read_write]
    rcases Nat.lt_trichotomy a k with hlt | rfl | hgt
    · simp [show ¬k ≤ a by omega, show ¬k + 1 ≤ a by omega, show a ≠ k by omega]
    · simp
    · have hsub : a - k = a - (k + 1) + 1 := by omega
      have hrange : (k ≤ a ∧ a < k + (c :: rest).length) ↔ (k + 1 ≤ a ∧ a < k + 1 + rest.length) := by
        rw [List.length_cons]
        omega
      rw [if_neg hgt.ne', hsub, List.getElem?_cons_succ]
      simp only [hrange]

theorem exec_setlen_of_le {s : State} {len : BitVec 9} (hp : s.phase = .idle)
    (h : len.toNat ≤ Config.msgMax) : exec (.setlen len) s = .next { s with len := len } := by
  simp [exec_idle hp, lenInRange, h]

theorem ofNat_length_toNat {text : List Byte} (h : text.length ≤ Config.msgMax) :
    (BitVec.ofNat 9 text.length).toNat = text.length := by
  rw [BitVec.toNat_ofNat, Nat.mod_eq_of_lt (lt_of_le_of_lt h (by decide))]

/-- The state LOADMSG leaves: `LEN` set, the text stored from index 0 on. -/
def loadText (text : List Byte) (s : State) : State :=
  { s with msg := storeText s.msg text 0, len := BitVec.ofNat 9 text.length }

theorem execAll_loadmsg {s : State} {text : List Byte} (hp : s.phase = .idle)
    (h : text.length ≤ Config.msgMax) :
    execAll (Asm.Stmt.loadmsg text).expand s = .next (loadText text s) := by
  have hlen := ofNat_length_toNat h
  rw [Asm.Stmt.expand, execAll, exec_setlen_of_le hp (by omega), andThen_of_next]
  exact execAll_loadWrites (s := { s with len := BitVec.ofNat 9 text.length }) hp text (k := 0)
    (by rwa [Nat.zero_add])

theorem read_loadText (text : List Byte) (s : State) (a : Nat) :
    Memory.read (loadText text s).msg a =
      if a < text.length then text[a]? else Memory.read s.msg a := by
  simpa [loadText] using read_storeText s.msg text 0 a

theorem loadText_len_toNat {text : List Byte} (h : text.length ≤ Config.msgMax) (s : State) :
    (loadText text s).len.toNat = text.length := ofNat_length_toNat h

theorem message_loadText {text : List Byte} (h : text.length ≤ Config.msgMax) (s : State) :
    message (loadText text s) = text := by
  apply List.ext_getElem (by rw [message_length, loadText_len_toNat h])
  intro i _ hi
  simp [message, msgRead, read_loadText, hi]

theorem messageWritten_loadText {text : List Byte} (h : text.length ≤ Config.msgMax) (s : State) :
    messageWritten (loadText text s) := by
  intro a ha
  rw [loadText_len_toNat h] at ha
  simp [Memory.written, read_loadText, ha]

/-! ## The statements -/

/-- Settles O4, from the encoded command's fields. -/
theorem decodeOfEncodeIsTheCommand : Obligations.DecodeOfEncodeIsTheCommand := by
  unfold Obligations.DecodeOfEncodeIsTheCommand
  exact decode_encode

/-- Settles O5, since a word is its fields in order. -/
theorem encodeOfDecodeIsTheWord : Obligations.EncodeOfDecodeIsTheWord := by
  unfold Obligations.EncodeOfDecodeIsTheWord
  exact fun w i => encode_of_decode_eq_ok

/-- Settles O6: a row selects the legal words of its opcode. -/
theorem decodeFollowsMatchAndMask : Obligations.DecodeFollowsMatchAndMask := by
  unfold Obligations.DecodeFollowsMatchAndMask
  exact ⟨rfl, fun w r hr => selects_iff_decode hr w, fun w r hr r' hr' => selects_unique hr hr'⟩

/-- Settles O7: the decoder's checks are those of the must-be-zero bits, and a legal word's command has
its row. -/
theorem illegalWordsAreRejected : Obligations.IllegalWordsAreRejected := by
  unfold Obligations.IllegalWordsAreRejected
  refine fun w => ⟨decode_eq_error_iff w, fun h s => ?_, fun h => ?_⟩
  · obtain ⟨e, he⟩ := (decode_eq_error_iff w).mpr h
    exact acceptWord_error he s
  · obtain ⟨i, hi⟩ := (illegalWord_eq_false_iff w).mp h
    obtain ⟨r, hr, hop⟩ := exists_opcodeRow i
    have hsel : r.selects w = true := (selects_iff_decode hr w).mpr ⟨i, hi, hop.symm⟩
    exact ⟨r, hr, hsel, fun r' hr' hsel' => selects_unique hr' hr hsel' hsel⟩

/-- Settles O3: the commands encode to the words, so the words decode to them; the other four words are
illegal. -/
theorem workedCommandWordsDecode : Obligations.WorkedCommandWordsDecode := by
  unfold Obligations.WorkedCommandWordsDecode
  refine ⟨fun row hrow => ?_, fun w hw => (decode_eq_error_iff w).mpr ?_⟩
  · have hencode : encode row.1 = row.2 := by
      fin_cases hrow <;> rfl
    exact ⟨(decode_eq_ok_iff _ _).mpr hencode, hencode⟩
  · fin_cases hw <;> rfl

/-- Settles O54, field by field. -/
theorem symbolWordHoldsItsFields : Obligations.SymbolWordHoldsItsFields := by
  unfold Obligations.SymbolWordHoldsItsFields
  exact fun x => ⟨word_kind x, word_units x, word_carrier x, word_tone x, word_last x, word_durMs x⟩

/-- Settles O55: the two fields are the kind's code and units, for each of the five kinds. -/
theorem symbolCodesStayInRange : Obligations.SymbolCodesStayInRange := by
  unfold Obligations.SymbolCodesStayInRange
  intro par msg mode dit L h x hx
  rw [word_kind, word_units, units_of_mem_encodeMessage h hx]
  cases x.kind <;> decide

/-- Settles O56, by computing the nine words. -/
theorem workedSymbolWords : Obligations.WorkedSymbolWords := by
  unfold Obligations.WorkedSymbolWords
  decide

/-- Settles O57: a command's operands fit their fields, and each listed bound is one of `wellFormed`'s. -/
theorem operandsAreNeverTruncated : Obligations.OperandsAreNeverTruncated := by
  unfold Obligations.OperandsAreNeverTruncated
  refine ⟨fun i => ?_, fun index byte h => ?_, fun len h => ?_, fun ms h => ⟨?_, ?_⟩,
    fun mode h => ?_, fun text h => ?_⟩
  · rw [assemble_of_wellFormed (wellFormed_stmt i), expand_stmt]
  all_goals
    apply assemble_of_not_wellFormed
    simp only [Asm.Stmt.wellFormed, Bool.and_eq_false_iff, decide_eq_false_iff_not]
    omega

/-- Settles O58: SETLEN sets `LEN`, and the WRMSGs store the text from index 0 on. -/
theorem loadmsgLoadsTheText : Obligations.LoadmsgLoadsTheText := by
  unfold Obligations.LoadmsgLoadsTheText
  intro text s h hp
  refine ⟨_, loadText text s, assemble_of_wellFormed (decide_eq_true h), execAll_loadmsg hp h, rfl,
    message_loadText h s, messageWritten_loadText h s, fun a ha => ?_⟩
  rw [read_loadText, if_neg (Nat.not_lt.mpr ha)]

end Sys2Proof.Machine

/-! The statements about the Morse table. A byte's entry is its row's or 0, so what is claimed of every
byte is checked on the rows. The checks are a Bool that `rfl` evaluates and not `decide`, each use of
which holds a thread, with its stack, until the kernel has checked the text before it. -/

namespace Sys2Proof.Machine

/-! ## A byte's entry is its row (40_morse_table.md R103-R107) -/

theorem romRows_keys_nodup : (romRows.map (·.1.toNat)).Nodup :=
  of_decide_eq_true rfl

/-- A byte's entry is that of its row, or 0 when it has none. -/
theorem rom_cases (b : Byte) :
    (b, rom b) ∈ romRows ∨ (rom b = 0 ∧ ∀ row ∈ romRows, row.1 ≠ b) := by
  unfold rom
  cases hf : romRows.find? fun row => row.1 == b with
  | none => exact .inr ⟨rfl, by simpa using hf⟩
  | some row =>
    have hb : row.1 = b := by simpa using List.find?_some hf
    exact .inl (hb ▸ List.mem_of_find?_eq_some hf)

theorem rom_eq_of_mem {b : Byte} {e : RomEntry} (h : (b, e) ∈ romRows) : rom b = e := by
  rcases rom_cases b with hrow | ⟨-, hnone⟩
  · exact congrArg Prod.snd (List.inj_on_of_nodup_map romRows_keys_nodup hrow h rfl)
  · exact absurd rfl (hnone _ h)

theorem entryValid_of_mem_romRows : ∀ row ∈ romRows, entryValid row.2 = true :=
  List.all_iff_forall_prop.mp rfl

theorem entryValid_rom_iff (b : Byte) : entryValid (rom b) = true ↔ (b, rom b) ∈ romRows := by
  refine ⟨fun hvalid => ?_, entryValid_of_mem_romRows (b, rom b)⟩
  rcases rom_cases b with hrow | ⟨hzero, -⟩
  · exact hrow
  · rw [hzero] at hvalid
    exact absurd hvalid Bool.false_ne_true

theorem rom_eq_zero_of_invalid {b : Byte} (h : entryValid (rom b) = false) : rom b = 0 := by
  rcases rom_cases b with hrow | ⟨hzero, -⟩
  · exact absurd ((entryValid_rom_iff b).mpr hrow) (Bool.eq_false_iff.mp h)
  · exact hzero

/-- Of the valid entries the space's alone has no elements (40_morse_table.md R101). -/
theorem entryCount_rom_eq_zero_iff {b : Byte} (h : entryValid (rom b) = true) :
    entryCount (rom b) = 0 ↔ b = 0x20 :=
  have hrows : ∀ row ∈ romRows, (entryCount row.2 = 0 ↔ row.1 = 0x20) :=
    List.all_iff_forall_prop.mp rfl
  hrows (b, rom b) ((entryValid_rom_iff b).mp h)

/-- The pattern bits from the number of elements on are 0 (40_morse_table.md R101). -/
theorem entryPattern_rom_lt (b : Byte) : (entryPattern (rom b)).toNat < 2 ^ entryCount (rom b) := by
  have hrows : ∀ row ∈ romRows, (entryPattern row.2).toNat < 2 ^ entryCount row.2 :=
    List.all_iff_forall_prop.mp rfl
  rcases rom_cases b with hrow | ⟨hzero, -⟩
  · exact hrows (b, rom b) hrow
  · rw [hzero]
    exact Nat.zero_lt_one

/-! ## The fold (40_morse_table.md R102) -/

@[simp] theorem lookup_false (b : Byte) : lookup false b = rom b := rfl

@[simp] theorem elementCount_false (b : Byte) : elementCount false b = entryCount (rom b) := rfl

theorem fold_of_lower {b : Byte} (h₁ : 0x61 ≤ b.toNat) (h₂ : b.toNat ≤ 0x7A) :
    fold true b = b - 0x20 := by
  simp [fold, h₁, h₂]

theorem fold_of_not_lower {b : Byte} (h : b.toNat < 0x61 ∨ 0x7A < b.toNat) (cf : Bool) :
    fold cf b = b := by
  refine if_neg fun hlower => ?_
  simp only [Bool.and_eq_true, decide_eq_true_eq] at hlower
  omega

theorem supported_false_iff (b : Byte) : supported false b = true ↔ (b, rom b) ∈ romRows :=
  entryValid_rom_iff b

/-! ## The elements of an entry (40_morse_table.md R101) -/

/-- The elements an entry stands for, the first sent first. -/
def entryElements (e : RomEntry) : List MorseSymbol :=
  (List.range (entryCount e)).map fun j => if (entryPattern e).getLsbD j then .dash else .dot

theorem pattern_eq_entryElements (cf : Bool) (b : Byte) :
    pattern cf b = entryElements (lookup cf b) := rfl

theorem pattern_getElem? {cf : Bool} {b : Byte} {j : Nat} (hj : j < entryCount (lookup cf b)) :
    (pattern cf b)[j]? = some (if (lookup cf b).getLsbD j then .dash else .dot) := by
  have hsix : j < 6 := hj.trans_le (elementCount_le_six cf b)
  simp [pattern, elementCount, hj, entryPattern, hsix]

/-! ## The "elements in order" column (40_morse_table.md R104-R106) -/

/-- The rows of the column are the rows of the table but the space's, with the entry's elements. -/
theorem morseColumn_eq_map :
    morseColumn = (lettersAtoM ++ lettersNtoZ ++ digitRows ++ punctuationRows).map
      fun row => (row.1, entryElements row.2) := rfl

/-- No two rows of the column have the same elements (40_morse_table.md R108). -/
theorem eq_of_morseColumn_elements_eq {row row' : Byte × List MorseSymbol} (h : row ∈ morseColumn)
    (h' : row' ∈ morseColumn) (heq : row.2 = row'.2) : row = row' :=
  have hnodup : (morseColumn.map (·.2)).Nodup := of_decide_eq_true rfl
  List.inj_on_of_nodup_map hnodup h h' heq

theorem mem_romRows_iff (row : Byte × RomEntry) : row ∈ romRows ↔
    row = (0x20, 0x200) ∨ row ∈ lettersAtoM ++ lettersNtoZ ++ digitRows ++ punctuationRows := by
  simp [romRows, spaceRow]

theorem rom_space : rom 0x20 = 0x200 := rom_eq_of_mem (by simp [mem_romRows_iff])

theorem pattern_of_mem_morseColumn {row : Byte × List MorseSymbol} (h : row ∈ morseColumn) :
    supported false row.1 = true ∧ pattern false row.1 = row.2 := by
  rw [morseColumn_eq_map, List.mem_map] at h
  obtain ⟨⟨b, e⟩, hrow, rfl⟩ := h
  have hmem : (b, e) ∈ romRows := (mem_romRows_iff _).mpr (.inr hrow)
  obtain rfl : rom b = e := rom_eq_of_mem hmem
  exact ⟨(supported_false_iff b).mpr hmem, pattern_eq_entryElements false b⟩

/-- A supported byte but the space stands in the column, with its pattern. -/
theorem mem_morseColumn_of_supported {b : Byte} (h : supported false b = true) (hb : b ≠ 0x20) :
    (b, pattern false b) ∈ morseColumn := by
  rw [morseColumn_eq_map, pattern_eq_entryElements]
  have hrow := (mem_romRows_iff _).mp ((supported_false_iff b).mp h)
  rcases hrow with hspace | hrow
  · exact absurd (congrArg Prod.fst hspace) hb
  · exact List.mem_map_of_mem hrow

/-! ## The ranges of the letters and the digits -/

/-- A byte in the range that the keys of some rows fill has a row among them. -/
theorem exists_row_of_keys_eq_range' {rows : List (Byte × RomEntry)} {lo n : Nat}
    (hkeys : rows.map (·.1.toNat) = List.range' lo n) {b : Byte} (hlo : lo ≤ b.toNat)
    (hhi : b.toNat < lo + n) : ∃ e, (b, e) ∈ rows := by
  have hb : b.toNat ∈ rows.map (·.1.toNat) := by
    rw [hkeys, List.mem_range'_1]
    exact ⟨hlo, hhi⟩
  obtain ⟨⟨c, e⟩, hrow, hc⟩ := List.mem_map.mp hb
  obtain rfl : c = b := BitVec.eq_of_toNat_eq hc
  exact ⟨e, hrow⟩

theorem mem_romRows_of_mem_letters {row : Byte × RomEntry} (h : row ∈ lettersAtoM ++ lettersNtoZ) :
    row ∈ romRows :=
  (mem_romRows_iff row).mpr (.inr (List.mem_append_left _ (List.mem_append_left _ h)))

theorem rom_mem_letters {b : Byte} (hlo : 0x41 ≤ b.toNat) (hhi : b.toNat ≤ 0x5A) :
    (b, rom b) ∈ lettersAtoM ++ lettersNtoZ := by
  obtain ⟨e, hrow⟩ := exists_row_of_keys_eq_range' (rows := lettersAtoM ++ lettersNtoZ)
    (lo := 0x41) (n := 26) rfl hlo (by omega)
  rwa [rom_eq_of_mem (mem_romRows_of_mem_letters hrow)]

theorem mem_romRows_of_mem_digitRows {row : Byte × RomEntry} (h : row ∈ digitRows) :
    row ∈ romRows :=
  (mem_romRows_iff row).mpr (.inr (List.mem_append_left _ (List.mem_append_right _ h)))

theorem rom_mem_digitRows {b : Byte} (hlo : 0x30 ≤ b.toNat) (hhi : b.toNat ≤ 0x39) :
    (b, rom b) ∈ digitRows := by
  obtain ⟨e, hrow⟩ := exists_row_of_keys_eq_range' (rows := digitRows)
    (lo := 0x30) (n := 10) rfl hlo (by omega)
  rwa [rom_eq_of_mem (mem_romRows_of_mem_digitRows hrow)]

/-- A letter has 1 to 4 elements (40_morse_table.md R108). -/
theorem entryCount_rom_letter {b : Byte} (hlo : 0x41 ≤ b.toNat) (hhi : b.toNat ≤ 0x5A) :
    1 ≤ entryCount (rom b) ∧ entryCount (rom b) ≤ 4 :=
  have hrows : ∀ row ∈ lettersAtoM ++ lettersNtoZ, 1 ≤ entryCount row.2 ∧ entryCount row.2 ≤ 4 :=
    List.all_iff_forall_prop.mp rfl
  hrows (b, rom b) (rom_mem_letters hlo hhi)

/-- A digit has 5 elements (40_morse_table.md R108). -/
theorem entryCount_rom_digit {b : Byte} (hlo : 0x30 ≤ b.toNat) (hhi : b.toNat ≤ 0x39) :
    entryCount (rom b) = 5 :=
  have hrows : ∀ row ∈ digitRows, entryCount row.2 = 5 :=
    List.all_iff_forall_prop.mp rfl
  hrows (b, rom b) (rom_mem_digitRows hlo hhi)

theorem supported_upper {b : Byte} (hlo : 0x41 ≤ b.toNat) (hhi : b.toNat ≤ 0x5A) :
    supported false b = true :=
  (supported_false_iff b).mpr (mem_romRows_of_mem_letters (rom_mem_letters hlo hhi))

/-- The letters of the table are upper-case, and no row lies above them. -/
theorem supported_false_of_upper_lt {b : Byte} (h : 0x5A < b.toNat) :
    supported false b = false := by
  have hkeys : ∀ row ∈ romRows, row.1.toNat ≤ 0x5A :=
    List.all_iff_forall_prop.mp rfl
  rw [Bool.eq_false_iff]
  exact fun hs => absurd (hkeys _ ((supported_false_iff b).mp hs)) (Nat.not_le.mpr h)

theorem sub_toNat_of_lower {b : Byte} (hlo : 0x61 ≤ b.toNat) : (b - 0x20).toNat = b.toNat - 0x20 := by
  bv_omega

theorem supported_true_of_lower {b : Byte} (hlo : 0x61 ≤ b.toNat) (hhi : b.toNat ≤ 0x7A) :
    supported true b = true := by
  have hsub := sub_toNat_of_lower hlo
  have hupper : supported false (b - 0x20) = true := supported_upper (by omega) (by omega)
  rwa [supported, lookup, fold_of_lower hlo hhi]

/-! ## The number of supported bytes (40_morse_table.md R108) -/

theorem supported_bytes_perm :
    ((List.range 256).filter fun n => supported false (BitVec.ofNat 8 n)).Perm
      (romRows.map (·.1.toNat)) := by
  rw [List.perm_ext_iff_of_nodup (List.nodup_range.filter _) romRows_keys_nodup]
  intro n
  simp only [List.mem_filter, List.mem_range, supported_false_iff, List.mem_map]
  constructor
  · rintro ⟨hn, hrow⟩
    exact ⟨_, hrow, Nat.mod_eq_of_lt hn⟩
  · rintro ⟨⟨b, e⟩, hrow, rfl⟩
    obtain rfl : rom b = e := rom_eq_of_mem hrow
    exact ⟨b.isLt, by simpa using hrow⟩

/-! ## The statements -/

/-- Settles O35: the column's rows are the table's, and a byte without a row has entry 0. -/
theorem morseTableHasTheListedPatterns : Obligations.MorseTableHasTheListedPatterns := by
  unfold Obligations.MorseTableHasTheListedPatterns
  refine ⟨fun row hrow => pattern_of_mem_morseColumn hrow, rom_space, fun b hb hnone => ?_⟩
  have hunsupported : supported false b = false := by
    rw [Bool.eq_false_iff]
    exact fun hs => hnone _ (mem_morseColumn_of_supported hs hb) rfl
  exact ⟨rom_eq_zero_of_invalid hunsupported, hunsupported⟩

/-- Settles O36: an entry is 0 or a row's, and the rows have the format. -/
theorem morseEntriesHaveTheirFormat : Obligations.MorseEntriesHaveTheirFormat := by
  unfold Obligations.MorseEntriesHaveTheirFormat
  refine fun b => ⟨fun hinvalid => ?_, fun hvalid hcount => ?_, fun hvalid hb => ⟨?_, ?_⟩,
    pattern_length false b, fun j hj => pattern_getElem? (cf := false) hj, fun j hj => ?_⟩
  · rw [rom_eq_zero_of_invalid hinvalid]
    exact ⟨rfl, rfl⟩
  · exact (entryCount_rom_eq_zero_iff hvalid).mp hcount
  · exact Nat.one_le_iff_ne_zero.mpr (mt (entryCount_rom_eq_zero_iff hvalid).mp hb)
  · exact elementCount_rom_le_six b
  · exact Nat.testBit_lt_two_pow
      ((entryPattern_rom_lt b).trans_le (Nat.pow_le_pow_right Nat.two_pos hj))

/-- Settles O37: 50 rows, distinct elements in their column, and the rows of the letters and digits. -/
theorem morseTableProperties : Obligations.MorseTableProperties := by
  unfold Obligations.MorseTableProperties
  refine ⟨supported_bytes_perm.length_eq, fun b c hb hc hb' hc' heq => ?_, fun b => ?_,
    fun b hlo hhi => ?_, fun b hlo hhi => ?_⟩
  · exact congrArg Prod.fst (eq_of_morseColumn_elements_eq (mem_morseColumn_of_supported hb hb')
      (mem_morseColumn_of_supported hc hc') heq)
  · rw [pattern_length]
    exact elementCount_le_six false b
  · rw [pattern_length]
    exact entryCount_rom_letter hlo hhi
  · rw [pattern_length, elementCount_false, entryCount_rom_digit hlo hhi]

/-- Settles O38: the fold's two cases, and the elements of the entry looked up. -/
theorem caseFoldingIsOnlyOfLetters : Obligations.CaseFoldingIsOnlyOfLetters := by
  unfold Obligations.CaseFoldingIsOnlyOfLetters
  refine ⟨fun b hlo hhi => ⟨?_, supported_true_of_lower hlo hhi, ?_⟩, fun b h => ?_, lookup_false,
    fun cf b => ⟨rfl, pattern_length cf b, fun j hj => pattern_getElem? hj⟩⟩
  · rw [lookup, fold_of_lower hlo hhi]
  · exact supported_false_of_upper_lt (by omega)
  · rw [lookup, fold_of_not_lower h]

end Sys2Proof.Machine

/-! The statements about the message encoder: what each character contributes to the kinds of a
message, and what `encode` makes of the message, its policy and its dit. -/

namespace Sys2Proof.Machine

/-! ## The space (40_morse_table.md R103) -/

theorem lookup_space (cf : Bool) : lookup cf 0x20 = 0x200 :=
  have hfold : fold cf 0x20 = 0x20 := fold_of_not_lower (.inl (of_decide_eq_true rfl)) cf
  (congrArg rom hfold).trans rom_space

theorem supported_space (cf : Bool) : supported cf 0x20 = true :=
  congrArg entryValid (lookup_space cf)

theorem elementCount_space (cf : Bool) : elementCount cf 0x20 = 0 :=
  congrArg entryCount (lookup_space cf)

/-! ## The cases of `encode` (41_message_encoder.md R131) -/

/-- A zero dit, and nothing else, is InvalidDit (41_message_encoder.md R133). -/
theorem encodeMessage_eq_invalidDit_iff {par : Config.Params} {msg : List Byte} {m : KeyingMode}
    {d : Dit} : encodeMessage par msg m d = .err .invalidDit ↔ d = 0 := by
  refine ⟨fun h => ?_, fun hd => if_pos hd⟩
  rcases encodeMessage_eq_err h with ⟨hd, -⟩ | ⟨-, k, b, -, he⟩
  · exact hd
  · cases he

/-- An unsupported byte is reported exactly when it ends the encoding. -/
theorem encodeMessage_eq_unsupported_iff {par : Config.Params} {msg : List Byte} {m : KeyingMode}
    {d : Dit} (hd : d ≠ 0) {k : Nat} {b : Byte} :
    encodeMessage par msg m d = .err (.unsupportedCharacter k b) ↔
      abortingByte par msg = some (k, b) := by
  constructor
  · intro h
    rcases encodeMessage_eq_err h with ⟨hd0, -⟩ | ⟨-, k', b', ha, he⟩
    · exact absurd hd0 hd
    · cases he
      exact ha
  · intro ha
    rw [encodeMessage, if_neg hd, ha]

theorem encodeMessage_of_not_aborted {par : Config.Params} {msg : List Byte}
    (ha : abortingByte par msg = none) (m : KeyingMode) {d : Dit} (hd : d ≠ 0) :
    encodeMessage par msg m d =
      .ok (key (kinds par.caseFold (keptCharacters par.caseFold msg)) m d) := by
  rw [encodeMessage, if_neg hd, ha]

/-- Only the abort policy ends an encoding at a byte (41_message_encoder.md R134, R135). -/
theorem abortingByte_eq_some_iff {par : Config.Params} {msg : List Byte} {k : Nat} {b : Byte} :
    abortingByte par msg = some (k, b) ↔
      par.skipUnsupported = false ∧ firstUnsupported par.caseFold msg 0 = some (k, b) := by
  simp [abortingByte, Option.filter_eq_some_iff, and_comm]

theorem abortingByte_of_skip {par : Config.Params} (h : par.skipUnsupported = true)
    (msg : List Byte) : abortingByte par msg = none := by
  rw [Option.eq_none_iff_forall_ne_some]
  rintro ⟨k, b⟩ ha
  obtain ⟨habort, -⟩ := abortingByte_eq_some_iff.mp ha
  exact Bool.false_ne_true (habort.symm.trans h)

theorem abortingByte_of_supported {par : Config.Params} {msg : List Byte}
    (h : ∀ b ∈ msg, supported par.caseFold b = true) : abortingByte par msg = none := by
  rw [Option.eq_none_iff_forall_ne_some]
  rintro ⟨k, b⟩ ha
  obtain ⟨-, hfirst⟩ := abortingByte_eq_some_iff.mp ha
  obtain ⟨-, hb, hunsupported, -⟩ := (firstUnsupported_eq_some_iff par.caseFold msg 0 k b).mp hfirst
  exact absurd (h b (List.mem_of_getElem? hb)) (Bool.eq_false_iff.mp hunsupported)

/-- A message that is all kept (41_message_encoder.md R132). -/
theorem encodeMessage_of_supported {par : Config.Params} {msg : List Byte}
    (h : ∀ b ∈ msg, supported par.caseFold b = true) (m : KeyingMode) {d : Dit} (hd : d ≠ 0) :
    encodeMessage par msg m d = .ok (key (kinds par.caseFold msg) m d) := by
  rw [encodeMessage_of_not_aborted (abortingByte_of_supported h) m hd, keptCharacters,
    List.filter_eq_self.mpr h]

/-- Under the skip policy `encode` reads only the kept characters (41_message_encoder.md R135). -/
theorem encodeMessage_congr_of_skip {par : Config.Params} (hskip : par.skipUnsupported = true)
    {msg msg' : List Byte}
    (hkept : keptCharacters par.caseFold msg = keptCharacters par.caseFold msg')
    (m : KeyingMode) (d : Dit) : encodeMessage par msg m d = encodeMessage par msg' m d := by
  by_cases hd : d = 0
  · rw [encodeMessage_eq_invalidDit_iff.mpr hd, encodeMessage_eq_invalidDit_iff.mpr hd]
  · rw [encodeMessage_of_not_aborted (abortingByte_of_skip hskip msg) m hd,
      encodeMessage_of_not_aborted (abortingByte_of_skip hskip msg') m hd, hkept]

theorem keptCharacters_idem (cf : Bool) (msg : List Byte) :
    keptCharacters cf (msg.filter (supported cf)) = keptCharacters cf msg := by
  simp only [keptCharacters, List.filter_filter, Bool.and_self]

theorem keptCharacters_eq_nil {cf : Bool} {msg : List Byte} (h : ∀ b ∈ msg, supported cf b = false) :
    keptCharacters cf msg = [] :=
  List.filter_eq_nil_iff.mpr fun b hb => Bool.eq_false_iff.mp (h b hb)

theorem symbolAtP_of_err {par : Config.Params} {s : State} {e : EncodeError}
    (h : seq par s = .err e) : symbolAtP par s = none := by
  rw [Option.eq_none_iff_forall_ne_some]
  intro x hx
  obtain ⟨L, hok, -⟩ := symbolAtP_eq_some_iff.mp hx
  cases h.symm.trans hok

/-! ## The symbols of `Key` (42_keying.md R160-R164) -/

@[simp] theorem key_nil (m : KeyingMode) (d : Dit) : key [] m d = [] := rfl

@[simp] theorem map_kind_key (ks : List MorseSymbol) (m : KeyingMode) (d : Dit) :
    (key ks m d).map TimedSymbol.kind = ks :=
  List.ext_getElem (by simp) fun i h _ => by
    rw [List.getElem_map, key_getElem ks m d i (by simpa using h)]
    rfl

theorem mem_key {ks : List MorseSymbol} {m : KeyingMode} {d : Dit} {x : TimedSymbol}
    (h : x ∈ key ks m d) : ∃ kind isLast, x = timedSymbol kind m d isLast := by
  obtain ⟨i, hi, rfl⟩ := List.mem_iff_getElem.mp h
  exact ⟨_, _, key_getElem ks m d i hi⟩

theorem unitsOf_le_seven (kind : MorseSymbol) : (unitsOf kind).toNat ≤ 7 :=
  Nat.le_of_lt_succ (unitsOf kind).isLt

/-- The product fits the 32 bits of a duration (42_keying.md R162). -/
theorem durationOf_toNat (kind : MorseSymbol) (d : Dit) :
    (durationOf kind d).toNat = (unitsOf kind).toNat * d.toNat := by
  have hfits : (unitsOf kind).toNat * d.toNat < 2 ^ 32 :=
    (Nat.mul_le_mul (unitsOf_le_seven kind) d.isLt.le).trans_lt (by norm_num)
  have hunits : (unitsOf kind).toNat < 2 ^ 32 := (unitsOf_le_seven kind).trans_lt (by norm_num)
  have hdit : d.toNat < 2 ^ 32 := d.isLt.trans (by norm_num)
  simp only [durationOf, BitVec.toNat_mul, BitVec.toNat_setWidth, Nat.mod_eq_of_lt hunits,
    Nat.mod_eq_of_lt hdit, Nat.mod_eq_of_lt hfits]

theorem sumOver_units_le (ks : List MorseSymbol) (m : KeyingMode) (d : Dit) :
    sumOver (fun x => x.units.toNat) (key ks m d) ≤ ks.length * 7 := by
  have hsum := List.sum_le_card_nsmul ((key ks m d).map fun x => x.units.toNat) 7 fun u hu => by
    obtain ⟨x, -, rfl⟩ := List.mem_map.mp hu
    exact Nat.le_of_lt_succ x.units.isLt
  rw [List.length_map, key_length, smul_eq_mul] at hsum
  exact hsum

/-- The total duration of a sequence (41_message_encoder.md R144). -/
theorem sumOver_durMs_key (ks : List MorseSymbol) (m : KeyingMode) (d : Dit) :
    sumOver (fun x => x.durMs.toNat) (key ks m d) =
      d.toNat * sumOver (fun x => x.units.toNat) (key ks m d) := by
  rw [sumOver, sumOver, ← List.sum_map_mul_left]
  refine congrArg List.sum (List.map_congr_left fun x hx => ?_)
  obtain ⟨kind, isLast, rfl⟩ := mem_key hx
  exact (durationOf_toNat kind d).trans (Nat.mul_comm _ _)

/-! ## The kinds of a message part by part (41_message_encoder.md R136-R139) -/

/-- The gap between the characters `a` and the characters `b` after them. -/
def boundaryGap (cf : Bool) (a b : List Byte) : List MorseSymbol :=
  a.getLast?.elim [] fun c => if elementCount cf c = 0 then [] else gapBefore cf b

theorem gapBefore_space {cf : Bool} {c : Byte} (h : elementCount cf c = 0) (rest : List Byte) :
    gapBefore cf (c :: rest) = [] := if_pos h

theorem gapBefore_element {cf : Bool} {c : Byte} (h : elementCount cf c ≠ 0) (rest : List Byte) :
    gapBefore cf (c :: rest) = [.interCharacterGap] := if_neg h

theorem boundaryGap_of_getLast? {cf : Bool} {a : List Byte} {c : Byte} (hlast : a.getLast? = some c)
    (b : List Byte) :
    boundaryGap cf a b = if elementCount cf c = 0 then [] else gapBefore cf b :=
  congrArg (Option.elim · [] _) hlast

theorem boundaryGap_before_space {cf : Bool} {c : Byte} (h : elementCount cf c = 0)
    (a rest : List Byte) : boundaryGap cf a (c :: rest) = [] := by
  cases hlast : a.getLast? with
  | none => exact congrArg (Option.elim · [] _) hlast
  | some last => rw [boundaryGap_of_getLast? hlast, gapBefore_space h, ite_self]

theorem boundaryGap_after_space {cf : Bool} {c : Byte} (h : elementCount cf c = 0)
    (a b : List Byte) : boundaryGap cf (a ++ [c]) b = [] := by
  rw [boundaryGap_of_getLast? List.getLast?_concat, if_pos h]

theorem boundaryGap_after_element {cf : Bool} {c : Byte} (h : elementCount cf c ≠ 0)
    (a b : List Byte) : boundaryGap cf (a ++ [c]) b = gapBefore cf b := by
  rw [boundaryGap_of_getLast? List.getLast?_concat, if_neg h]

theorem boundaryGap_cons_cons (cf : Bool) (c c' : Byte) (a b : List Byte) :
    boundaryGap cf (c :: c' :: a) b = boundaryGap cf (c' :: a) b :=
  congrArg (Option.elim · [] _) List.getLast?_cons_cons

/-- What a character contributes is itself and the gap before what follows it. -/
theorem characterKinds_eq_append_boundaryGap (cf : Bool) (c : Byte) (b : List Byte) :
    characterKinds cf c b = characterKinds cf c [] ++ boundaryGap cf [c] b := by
  by_cases h : elementCount cf c = 0
  · have hgap : boundaryGap cf [c] b = [] := boundaryGap_after_space h [] b
    rw [characterKinds_space b h, characterKinds_space [] h, hgap, List.append_nil]
  · have hgap : boundaryGap cf [c] b = gapBefore cf b := boundaryGap_after_element h [] b
    have hend : gapBefore cf [] = [] := rfl
    rw [characterKinds_element b h, characterKinds_element [] h, hgap, hend, List.append_nil]

/-- The kinds of two parts of a message, with the gap between them. -/
theorem kinds_append (cf : Bool) (a b : List Byte) :
    kinds cf (a ++ b) = kinds cf a ++ boundaryGap cf a b ++ kinds cf b := by
  induction a with
  | nil => rfl
  | cons c a ih =>
    cases a with
    | nil =>
      rw [List.singleton_append, kinds_cons, kinds_cons, kinds_nil, List.append_nil,
        characterKinds_eq_append_boundaryGap cf c b]
    | cons c' a =>
      have hhead : characterKinds cf c (c' :: a ++ b) = characterKinds cf c (c' :: a) := rfl
      rw [boundaryGap_cons_cons, List.cons_append, kinds_cons, hhead, ih, kinds_cons cf c]
      simp only [List.append_assoc]

theorem kinds_singleton_element {cf : Bool} {c : Byte} (h : elementCount cf c ≠ 0) :
    kinds cf [c] = (pattern cf c).intersperse .intraCharacterGap := by
  have hend : gapBefore cf [] = [] := rfl
  rw [kinds_cons, characterKinds_element [] h, hend, kinds_nil, List.append_nil, List.append_nil]

theorem kinds_replicate_space {cf : Bool} {c : Byte} (h : elementCount cf c = 0) (n : Nat) :
    kinds cf (List.replicate n c) = List.replicate n .wordGap := by
  induction n with
  | zero => rfl
  | succ n ih => rw [List.replicate_succ, kinds_cons, characterKinds_space _ h, ih]; rfl

/-- Elements with a gap between each two end with an element. -/
theorem exists_intersperse_eq_append {α : Type} (g : α) {l : List α} (h : l ≠ []) :
    ∃ front, ∃ e ∈ l, l.intersperse g = front ++ [e] := by
  induction l with
  | nil => exact absurd rfl h
  | cons a l ih =>
    cases l with
    | nil => exact ⟨[], a, List.mem_singleton_self a, rfl⟩
    | cons b l =>
      obtain ⟨front, e, he, heq⟩ := ih (List.cons_ne_nil b l)
      exact ⟨a :: g :: front, e, List.mem_cons_of_mem a he, congrArg (a :: g :: ·) heq⟩

theorem pattern_ne_nil {cf : Bool} {c : Byte} (h : elementCount cf c ≠ 0) : pattern cf c ≠ [] :=
  List.ne_nil_of_length_pos (by rw [pattern_length]; omega)

/-- What ends with a character that is no space ends with an element (41_message_encoder.md R138,
R139). -/
theorem kinds_append_element_ends_with_element {cf : Bool} {c : Byte} (h : elementCount cf c ≠ 0)
    (a : List Byte) : ∃ front e, kinds cf (a ++ [c]) = front ++ [e] ∧ isElement e = true := by
  obtain ⟨front, e, he, heq⟩ :=
    exists_intersperse_eq_append MorseSymbol.intraCharacterGap (pattern_ne_nil h)
  refine ⟨kinds cf a ++ boundaryGap cf a [c] ++ front, e, ?_, isElement_of_mem_pattern he⟩
  rw [kinds_append, kinds_singleton_element h, heq, List.append_assoc _ front]

/-! ## The length of a sequence (41_message_encoder.md R142) -/

theorem pattern_intersperse_length_le (cf : Bool) (c : Byte) :
    ((pattern cf c).intersperse .intraCharacterGap).length ≤ 11 := by
  have hsix := elementCount_le_six cf c
  rw [List.length_intersperse, pattern_length]
  omega

/-- With no gap after the last character there is one symbol less than 12 for each. -/
theorem kinds_length_le_sub_one (cf : Bool) (msg : List Byte) :
    (kinds cf msg).length ≤ 12 * msg.length - 1 := by
  induction msg with
  | nil => simp
  | cons c rest ih =>
    rw [kinds_cons, List.length_append, List.length_cons]
    cases rest with
    | nil =>
      have hlast : (characterKinds cf c []).length ≤ 11 := by
        by_cases h : elementCount cf c = 0
        · rw [characterKinds_space [] h, List.length_singleton]
          omega
        · have hend : gapBefore cf [] = [] := rfl
          rw [characterKinds_element [] h, hend, List.append_nil]
          exact pattern_intersperse_length_le cf c
      simpa using hlast
    | cons c' rest =>
      have hc := characterKinds_length_le cf c (c' :: rest)
      rw [List.length_cons] at ih ⊢
      omega

theorem encodeMessage_length_le {par : Config.Params} {msg : List Byte} {m : KeyingMode} {d : Dit}
    {L : List TimedSymbol} (h : encodeMessage par msg m d = .ok L) :
    L.length ≤ 12 * msg.length - 1 := by
  obtain ⟨-, -, rfl⟩ := encodeMessage_eq_ok h
  have hkept : (keptCharacters par.caseFold msg).length ≤ msg.length := List.length_filter_le _ _
  have hkinds := kinds_length_le_sub_one par.caseFold (keptCharacters par.caseFold msg)
  rw [key_length]
  omega

theorem encodeMessage_length_le_of_msgMax {par : Config.Params} {msg : List Byte} {m : KeyingMode}
    {d : Dit} {L : List TimedSymbol} (h : encodeMessage par msg m d = .ok L)
    (hmsg : msg.length ≤ Config.msgMax) : L.length ≤ 3071 := by
  have hlen := encodeMessage_length_le h
  have hbytes : msg.length ≤ 256 := hmsg
  omega

/-! ## Elements and gaps alternate (41_message_encoder.md R143)

A sequence alternates when, with a WordGap put before and after it, it holds no two neighbours that may
not meet; the two WordGaps say that it neither begins nor ends with a gap of another kind. The one in a
list literal under `++` is named in full: there Lean looks for a shortened name in the whole text, and
waits until the kernel has checked it. -/

/-- `y` may stand right after `x`. -/
def MayFollow (x y : MorseSymbol) : Prop :=
  (isElement x = true → isElement y = false) ∧
    (isElement x = false → isElement y = false → x = .wordGap ∧ y = .wordGap)

theorem mayFollow_element_gap {x y : MorseSymbol} (hx : isElement x = true)
    (hy : isElement y = false) : MayFollow x y :=
  ⟨fun _ => hy, fun hx' => absurd hx (Bool.eq_false_iff.mp hx')⟩

theorem mayFollow_gap_element {x y : MorseSymbol} (hx : isElement x = false)
    (hy : isElement y = true) : MayFollow x y :=
  ⟨fun hx' => absurd hx' (Bool.eq_false_iff.mp hx),
    fun _ hy' => absurd hy (Bool.eq_false_iff.mp hy')⟩

theorem mayFollow_wordGap_wordGap : MayFollow .wordGap .wordGap :=
  ⟨fun _ => rfl, fun _ _ => ⟨rfl, rfl⟩⟩

/-- The kinds of a sequence alternate (41_message_encoder.md R143). -/
def Alternates (ks : List MorseSymbol) : Prop :=
  List.IsChain MayFollow (.wordGap :: (ks ++ [MorseSymbol.wordGap]))

theorem Alternates.isChain {ks : List MorseSymbol} (h : Alternates ks) : List.IsChain MayFollow ks :=
  (List.IsChain.tail h).left_of_append

theorem gap_of_intra_or_inter {x : MorseSymbol}
    (hx : x = .intraCharacterGap ∨ x = .interCharacterGap) : isElement x = false ∧ x ≠ .wordGap := by
  rcases hx with rfl | rfl
  · exact ⟨rfl, nofun⟩
  · exact ⟨rfl, nofun⟩

theorem MayFollow.element_before {u x : MorseSymbol} (h : MayFollow u x) (hx : isElement x = false)
    (hword : x ≠ .wordGap) : isElement u = true := by
  rw [← Bool.not_eq_false]
  exact fun hu => hword (h.2 hu hx).2

theorem MayFollow.element_after {x y : MorseSymbol} (h : MayFollow x y) (hx : isElement x = false)
    (hword : x ≠ .wordGap) : isElement y = true := by
  rw [← Bool.not_eq_false]
  exact fun hy => hword (h.2 hx hy).1

/-- The elements of a character after a gap, before what may follow any element. -/
theorem isChain_intersperse_append {t p : List MorseSymbol}
    (ht : ∀ e, isElement e = true → List.IsChain MayFollow (e :: t)) (hne : p ≠ [])
    (hp : ∀ e ∈ p, isElement e = true) {g : MorseSymbol} (hg : isElement g = false) :
    List.IsChain MayFollow (g :: (p.intersperse .intraCharacterGap ++ t)) := by
  induction p generalizing g with
  | nil => exact absurd rfl hne
  | cons e p ih =>
    have he := hp e List.mem_cons_self
    cases p with
    | nil => exact .cons_cons (mayFollow_gap_element hg he) (ht e he)
    | cons e' p =>
      have hrest := ih (List.cons_ne_nil e' p) (fun x hx => hp x (List.mem_cons_of_mem e hx))
        (g := .intraCharacterGap) rfl
      exact .cons_cons (mayFollow_gap_element hg he)
        (.cons_cons (mayFollow_element_gap he rfl) hrest)

/-- The kinds of a message alternate after a WordGap, and, with the gap that goes there, after an
element. -/
theorem isChain_kinds (cf : Bool) (msg : List Byte) :
    Alternates (kinds cf msg) ∧
      ∀ e, isElement e = true →
        List.IsChain MayFollow
          (e :: (gapBefore cf msg ++ (kinds cf msg ++ [MorseSymbol.wordGap]))) := by
  induction msg with
  | nil =>
    exact ⟨.cons_cons mayFollow_wordGap_wordGap (.singleton _),
      fun e he => .cons_cons (mayFollow_element_gap he rfl) (.singleton _)⟩
  | cons c rest ih =>
    obtain ⟨hword, helement⟩ := ih
    rw [kinds_cons]
    by_cases hc : elementCount cf c = 0
    · rw [characterKinds_space rest hc, gapBefore_space hc]
      exact ⟨.cons_cons mayFollow_wordGap_wordGap hword,
        fun e he => .cons_cons (mayFollow_element_gap he rfl) hword⟩
    · have hcharacter : ∀ g, isElement g = false → List.IsChain MayFollow
          (g :: (characterKinds cf c rest ++ kinds cf rest ++ [MorseSymbol.wordGap])) := fun g hg => by
        simp only [characterKinds_element rest hc, List.append_assoc]
        exact isChain_intersperse_append helement (pattern_ne_nil hc)
          (fun _ => isElement_of_mem_pattern) hg
      rw [gapBefore_element hc]
      exact ⟨hcharacter _ rfl,
        fun e he => .cons_cons (mayFollow_element_gap he rfl) (hcharacter _ rfl)⟩

theorem encodeMessage_alternates {par : Config.Params} {msg : List Byte} {m : KeyingMode} {d : Dit}
    {L : List TimedSymbol} (h : encodeMessage par msg m d = .ok L) :
    Alternates (L.map TimedSymbol.kind) := by
  obtain ⟨-, -, rfl⟩ := encodeMessage_eq_ok h
  obtain ⟨halternates, -⟩ := isChain_kinds par.caseFold (keptCharacters par.caseFold msg)
  rwa [map_kind_key]

theorem mayFollow_of_getElem? {l : List MorseSymbol} (h : List.IsChain MayFollow l) {i : Nat}
    {x y : MorseSymbol} (hx : l[i]? = some x) (hy : l[i + 1]? = some y) : MayFollow x y := by
  obtain ⟨_, rfl⟩ := List.getElem?_eq_some_iff.mp hx
  obtain ⟨hi, rfl⟩ := List.getElem?_eq_some_iff.mp hy
  exact List.isChain_iff_getElem.mp h i hi

/-- A gap that is no WordGap has an element before it. -/
theorem exists_element_before_gap {ks : List MorseSymbol}
    (h : Alternates ks) {i : Nat} {x : MorseSymbol}
    (hi : ks[i]? = some x) (hx : isElement x = false) (hword : x ≠ .wordGap) :
    ∃ j u, i = j + 1 ∧ ks[j]? = some u ∧ isElement u = true := by
  obtain ⟨hlt, -⟩ := List.getElem?_eq_some_iff.mp hi
  cases i with
  | zero =>
    have hat : (ks ++ [MorseSymbol.wordGap])[0]? = some x := by rw [List.getElem?_append_left hlt, hi]
    exact absurd ((mayFollow_of_getElem? h (i := 0) rfl hat).element_before hx hword)
      Bool.false_ne_true
  | succ j =>
    have hj : ks[j]? = some ks[j] := List.getElem?_eq_getElem (by omega)
    exact ⟨j, ks[j], rfl, hj,
      (mayFollow_of_getElem? h.isChain hj hi).element_before hx hword⟩

/-- A gap that is no WordGap has an element after it. -/
theorem exists_element_after_gap {ks : List MorseSymbol}
    (h : Alternates ks) {i : Nat} {x : MorseSymbol}
    (hi : ks[i]? = some x) (hx : isElement x = false) (hword : x ≠ .wordGap) :
    ∃ y, ks[i + 1]? = some y ∧ isElement y = true := by
  obtain ⟨hlt, -⟩ := List.getElem?_eq_some_iff.mp hi
  have hat : (ks ++ [MorseSymbol.wordGap])[i]? = some x := by rw [List.getElem?_append_left hlt, hi]
  rcases Nat.lt_or_eq_of_le (Nat.succ_le_of_lt hlt) with hnext | hend
  · have hy : ks[i + 1]? = some ks[i + 1] := List.getElem?_eq_getElem hnext
    exact ⟨_, hy, (mayFollow_of_getElem? h.isChain hi hy).element_after hx hword⟩
  · have hy : (ks ++ [MorseSymbol.wordGap])[i + 1]? = some .wordGap := by
      rw [show i + 1 = ks.length from hend, List.getElem?_concat_length]
    exact absurd ((mayFollow_of_getElem? (List.IsChain.tail h) hat hy).element_after hx hword)
      Bool.false_ne_true

/-! ## The statements -/

/-- Settles O40: the scan finds the lowest unsupported byte, and PRESENT needs a symbol at `P`. -/
theorem abortReportsTheLowestUnsupportedByte : Obligations.AbortReportsTheLowestUnsupportedByte := by
  unfold Obligations.AbortReportsTheLowestUnsupportedByte
  refine ⟨fun par msg mode dit k b habort hdit => ?_, fun par s e he => ⟨?_, symbolAtP_of_err he⟩⟩
  · rw [encodeMessage_eq_unsupported_iff hdit, abortingByte_eq_some_iff,
      firstUnsupported_eq_some_iff]
    simp [habort]
  · rw [Bool.eq_false_iff, Ne, presentEnabled_iff, symbolAtP_of_err he]
    simp

/-- Settles O41: under the skip policy `encode` reads only the kept characters. -/
theorem skipLeavesUnsupportedBytesOut : Obligations.SkipLeavesUnsupportedBytesOut := by
  unfold Obligations.SkipLeavesUnsupportedBytesOut
  refine fun par msg mode dit hskip => ⟨?_, fun k b h => ?_, fun hnone => ?_⟩
  · exact encodeMessage_congr_of_skip hskip (keptCharacters_idem _ msg).symm mode dit
  · rcases encodeMessage_eq_err h with ⟨-, he⟩ | ⟨-, k', b', ha, -⟩
    · cases he
    · simp [abortingByte_of_skip hskip] at ha
  · exact encodeMessage_congr_of_skip hskip (keptCharacters_eq_nil hnone) mode dit

/-- Settles O42: no kept character gives no symbol, and a space gives a WordGap. -/
theorem emptyMessageGivesTheEmptySequence : Obligations.EmptyMessageGivesTheEmptySequence := by
  unfold Obligations.EmptyMessageGivesTheEmptySequence
  refine fun par mode dit hdit => ⟨?_, fun msg hskip hnone => ?_, fun n => ?_⟩
  · exact encodeMessage_of_supported (by simp) mode hdit
  · rw [encodeMessage_of_not_aborted (abortingByte_of_skip hskip msg) mode hdit,
      keptCharacters_eq_nil hnone, kinds_nil, key_nil]
  · have hspaces : ∀ b ∈ List.replicate n (0x20 : Byte), supported par.caseFold b = true :=
      fun b hb => List.eq_of_mem_replicate hb ▸ supported_space par.caseFold
    refine ⟨_, encodeMessage_of_supported hspaces mode hdit, ?_⟩
    rw [map_kind_key, kinds_replicate_space (elementCount_space par.caseFold)]

/-- Settles O43, by the positions of a list with a gap between each two of its elements. -/
theorem characterIsElementsWithGapsBetween : Obligations.CharacterIsElementsWithGapsBetween := by
  unfold Obligations.CharacterIsElementsWithGapsBetween
  intro cf c rest hc
  refine ⟨kinds_cons cf c rest, _, _, characterKinds_element rest hc, gapBefore_cases cf rest, ?_,
    fun j _ => List.getElem?_intersperse_two_mul, fun j hj => ?_⟩
  · rw [List.length_intersperse, pattern_length]
  · exact List.getElem?_intersperse_two_mul_add_one (by rwa [pattern_length])

/-- Settles O44: the message is cut at the character, and the gap at the cut is the one `kinds_append`
gives. -/
theorem gapsStandBetweenCharactersAndForSpaces :
    Obligations.GapsStandBetweenCharactersAndForSpaces := by
  unfold Obligations.GapsStandBetweenCharactersAndForSpaces
  refine ⟨fun cf a b c d => ⟨fun hc => ?_, fun hc hd => ?_, fun hc =>
    ⟨kinds_singleton_element hc, kinds_append_element_ends_with_element hc a⟩⟩,
    fun par msg mode dit hdit hkept => ?_⟩
  · rw [kinds_append, boundaryGap_before_space hc, kinds_cons, characterKinds_space b hc,
      List.append_nil, List.singleton_append]
  · rw [List.append_cons, kinds_append, boundaryGap_after_element hc, gapBefore_element hd,
      List.append_assoc, List.singleton_append]
  · have hnone : abortingByte par msg = none :=
      hkept.elim (abortingByte_of_skip · msg) abortingByte_of_supported
    exact ⟨_, encodeMessage_of_not_aborted hnone mode hdit, map_kind_key _ mode dit⟩

/-- Settles O45, by the bound on each character's contribution. -/
theorem sequenceLengthIsBounded : Obligations.SequenceLengthIsBounded := by
  unfold Obligations.SequenceLengthIsBounded
  refine ⟨fun par msg mode dit L h => ⟨encodeMessage_length_le h, fun hmsg => ?_⟩,
    fun cf c rest => ⟨fun hc => ?_, pattern_intersperse_length_le cf c,
      characterKinds_length_le cf c rest⟩,
    fun par b hb hfold mode => ?_⟩
  · have hlen := encodeMessage_length_le_of_msgMax h hmsg
    exact ⟨hlen, by omega⟩
  · rw [characterKinds_space rest hc, List.length_singleton]
  · have hone : ∀ b ∈ ([0x45, 0x54, 0x20] : List Byte),
        supported false b = true ∧ (kinds false [b]).length = 1 := List.all_iff_forall_prop.mp rfl
    obtain ⟨hsupported, hlength⟩ := hone b hb
    refine ⟨_, encodeMessage_of_supported (by simpa [hfold] using hsupported) mode
      (of_decide_eq_true rfl), ?_⟩
    rw [key_length, hfold, hlength]

/-- Settles O46: neighbours may meet, also where the sequence is put between two WordGaps. -/
theorem elementsAndGapsAlternate : Obligations.ElementsAndGapsAlternate := by
  unfold Obligations.ElementsAndGapsAlternate
  intro par msg mode dit L h
  have halternates := encodeMessage_alternates h
  have hkind : ∀ {i : Nat} {x : TimedSymbol}, L[i]? = some x →
      (L.map TimedSymbol.kind)[i]? = some x.kind := fun hx => by
    rw [List.getElem?_map, hx, Option.map_some]
  refine ⟨fun i x y hx hy =>
    mayFollow_of_getElem? halternates.isChain (hkind hx) (hkind hy), fun i x hx hgap => ?_⟩
  obtain ⟨hnoElement, hnoWord⟩ := gap_of_intra_or_inter hgap
  obtain ⟨j, u, hij, hu, hbefore⟩ := exists_element_before_gap halternates (hkind hx) hnoElement hnoWord
  obtain ⟨w, hw, hafter⟩ := exists_element_after_gap halternates (hkind hx) hnoElement hnoWord
  rw [List.getElem?_map, Option.map_eq_some_iff] at hu hw
  obtain ⟨v, hv, rfl⟩ := hu
  obtain ⟨y, hy, rfl⟩ := hw
  exact ⟨j, v, y, hij, hv, hy, hbefore, hafter⟩

/-- Settles O47: each duration is units times dit, and at most 3071 symbols have at most 7 units. -/
theorem totalDurationIsUnitsTimesDit : Obligations.TotalDurationIsUnitsTimesDit := by
  unfold Obligations.TotalDurationIsUnitsTimesDit
  intro par msg mode dit L h
  have hlength := encodeMessage_length_le_of_msgMax h
  obtain ⟨-, -, rfl⟩ := encodeMessage_eq_ok h
  refine ⟨sumOver_durMs_key _ mode dit, fun hmsg => ?_⟩
  have hunits := sumOver_units_le (kinds par.caseFold (keptCharacters par.caseFold msg)) mode dit
  have hsymbols := hlength hmsg
  rw [key_length] at hsymbols
  rw [sumOver_durMs_key]
  calc dit.toNat * _ ≤ 2 ^ 28 * (3071 * 7) := Nat.mul_le_mul dit.isLt.le (by omega)
    _ < 2 ^ 43 := by norm_num

/-- Settles O39: `encode` looks at the dit before any byte, and no byte gives InvalidDit. -/
theorem invalidDitComesFirst : Obligations.InvalidDitComesFirst := by
  unfold Obligations.InvalidDitComesFirst
  exact fun par msg mode dit => encodeMessage_eq_invalidDit_iff

/-- Settles O48: the three bytes are kept under either policy, and `Key` of their kinds is computed. -/
theorem sosEncodesToTheWorkedSequence : Obligations.SosEncodesToTheWorkedSequence := by
  unfold Obligations.SosEncodesToTheWorkedSequence
  intro par hfold
  have hsos : ∀ b ∈ ([0x53, 0x4F, 0x53] : List Byte), supported par.caseFold b = true := by
    rw [hfold]
    exact List.all_iff_forall_prop.mp rfl
  refine ⟨_, encodeMessage_of_supported hsos .onOffKeyed (of_decide_eq_true rfl), ?_⟩
  rw [hfold]
  exact ⟨rfl, rfl, rfl, rfl, rfl⟩

end Sys2Proof.Machine

/-! The statements about keying: what `Key` puts in each field of a symbol, and which of the fields
depend on the mode and the dit. -/

namespace Sys2Proof.Machine

/-! ## The fields of a symbol (42_keying.md R160-R167) -/

theorem one_le_unitsOf (kind : MorseSymbol) : 1 ≤ (unitsOf kind).toNat := by
  cases kind <;> decide

/-- The largest duration is a WordGap's at the largest dit (42_keying.md R162). -/
theorem durationOf_le (kind : MorseSymbol) (d : Dit) : (durationOf kind d).toNat ≤ 1879048185 := by
  rw [durationOf_toNat]
  calc (unitsOf kind).toNat * d.toNat
      ≤ 7 * (2 ^ 28 - 1) := Nat.mul_le_mul (unitsOf_le_seven kind) (Nat.le_pred_of_lt d.isLt)
    _ = 1879048185 := by norm_num

/-- No symbol is without duration when the dit is not zero (42_keying.md R163). -/
theorem durationOf_ne_zero (kind : MorseSymbol) {d : Dit} (hd : d ≠ 0) : durationOf kind d ≠ 0 := by
  have hunits : (unitsOf kind).toNat ≠ 0 := Nat.one_le_iff_ne_zero.mp (one_le_unitsOf kind)
  have hdit : d.toNat ≠ 0 := BitVec.toNat_ne_iff_ne.mpr hd
  have hproduct : (durationOf kind d).toNat ≠ 0 := by
    rw [durationOf_toNat]
    exact Nat.mul_ne_zero hunits hdit
  exact BitVec.toNat_ne_iff_ne.mp hproduct

theorem isElement_eq_true_iff {kind : MorseSymbol} :
    isElement kind = true ↔ kind = .dot ∨ kind = .dash := by
  cases kind <;> decide

theorem toneOf_eq_true_iff {kind : MorseSymbol} {m : KeyingMode} :
    toneOf kind m = true ↔ m = .frequencyShiftKeyed ∧ kind = .dash := by
  cases m with
  | onOffKeyed => simp [toneOf]
  | frequencyShiftKeyed => simp [toneOf]

/-! ## The symbols of a sequence (42_keying.md R164, R168, R171) -/

/-- Each symbol of a sequence is `Sym` of a kind, at the mode and the dit encoded with. -/
theorem exists_timedSymbol_of_mem_encodeMessage {par : Config.Params} {msg : List Byte}
    {m : KeyingMode} {d : Dit} {L : List TimedSymbol} (h : encodeMessage par msg m d = .ok L)
    {x : TimedSymbol} (hx : x ∈ L) : ∃ kind isLast, x = timedSymbol kind m d isLast := by
  obtain ⟨-, -, rfl⟩ := encodeMessage_eq_ok h
  exact mem_key hx

theorem last_of_key_getElem? {ks : List MorseSymbol} {m : KeyingMode} {d : Dit} {i : Nat}
    {x : TimedSymbol} (hx : (key ks m d)[i]? = some x) : x.last = decide (i + 1 = ks.length) := by
  obtain ⟨hi, rfl⟩ := List.getElem?_eq_some_iff.mp hx
  rw [key_getElem ks m d i hi]
  rfl

/-- What depends only on a symbol's kind and place is the same at two modes and dits. -/
theorem map_key_congr {α : Type} {f : TimedSymbol → α} {m₁ m₂ : KeyingMode} {d₁ d₂ : Dit}
    (hf : ∀ kind isLast, f (timedSymbol kind m₁ d₁ isLast) = f (timedSymbol kind m₂ d₂ isLast))
    (ks : List MorseSymbol) : (key ks m₁ d₁).map f = (key ks m₂ d₂).map f := by
  refine List.ext_getElem (by simp) fun i h₁ h₂ => ?_
  rw [List.length_map] at h₁ h₂
  rw [List.getElem_map, List.getElem_map, key_getElem ks m₁ d₁ i h₁, key_getElem ks m₂ d₂ i h₂, hf]

/-! ## The statements -/

/-- Settles O50, at each position of `Key`. -/
theorem lastMarksTheFinalSymbolOnly : Obligations.LastMarksTheFinalSymbolOnly := by
  unfold Obligations.LastMarksTheFinalSymbolOnly
  intro par msg mode dit L h i x hx
  obtain ⟨-, -, rfl⟩ := encodeMessage_eq_ok h
  rw [last_of_key_getElem? hx, decide_eq_true_iff, key_length]

/-- Settles O51: the carrier of a symbol is constant in FSK, and in OOK marks the elements. -/
theorem fskNeverTurnsTheCarrierOff : Obligations.FskNeverTurnsTheCarrierOff := by
  unfold Obligations.FskNeverTurnsTheCarrierOff
  refine fun par msg dit L => ⟨fun h x hx => ?_, fun h x hx => ?_⟩
  · obtain ⟨kind, isLast, rfl⟩ := exists_timedSymbol_of_mem_encodeMessage h hx
    rfl
  · obtain ⟨kind, isLast, rfl⟩ := exists_timedSymbol_of_mem_encodeMessage h hx
    exact isElement_eq_true_iff

/-- Settles O52, by the tone of each symbol's kind. -/
theorem toneIsHighOnlyOnFskDashes : Obligations.ToneIsHighOnlyOnFskDashes := by
  unfold Obligations.ToneIsHighOnlyOnFskDashes
  intro par msg mode dit L h x hx
  obtain ⟨kind, isLast, rfl⟩ := exists_timedSymbol_of_mem_encodeMessage h hx
  exact toneOf_eq_true_iff

/-- Settles O53: both sequences are `Key` of the same kinds, and these fields of a symbol do not read
the mode. -/
theorem modeChangesOnlyCarrierAndTone : Obligations.ModeChangesOnlyCarrierAndTone := by
  unfold Obligations.ModeChangesOnlyCarrierAndTone
  intro par msg d₁ d₂ L₁ L₂ h₁ h₂
  obtain ⟨-, -, rfl⟩ := encodeMessage_eq_ok h₁
  obtain ⟨-, -, rfl⟩ := encodeMessage_eq_ok h₂
  refine ⟨map_key_congr (by intros; rfl) _, map_key_congr (by exact fun _ _ => rfl) _,
    map_key_congr (by intros; rfl) _, ?_⟩
  rintro rfl
  exact map_key_congr (by intros; rfl) _

/-- Settles O49: the product fits, and neither factor is zero. -/
theorem durationIsExactAndNonzero : Obligations.DurationIsExactAndNonzero := by
  unfold Obligations.DurationIsExactAndNonzero
  refine ⟨fun kind dit => ⟨durationOf_toNat kind dit, durationOf_le kind dit,
    (durationOf_le kind dit).trans_lt (by norm_num), rfl, durationOf_ne_zero kind⟩,
    fun par msg mode dit L h x hx => ?_⟩
  obtain ⟨hdit, -, -⟩ := encodeMessage_eq_ok h
  obtain ⟨kind, isLast, rfl⟩ := exists_timedSymbol_of_mem_encodeMessage h hx
  exact ⟨durationOf_toNat kind dit, durationOf_ne_zero kind hdit⟩

end Sys2Proof.Machine

/-! The statements about each command: by its word, with its rejections, and in IDLE. -/

namespace Sys2Proof.Machine

/-! ## A command by its word -/

/-- A word whose format has a must-be-zero field: ILLEGAL, or its command (30_encoding.md R75). -/
theorem acceptWord_of_requireZero {n : Nat} {w : Word} {rz : BitVec n} {op : BitVec 4} {i : Instr}
    (h : decode w = requireZero rz op i) (s : State) :
    acceptWord w s = if rz ≠ 0 then .next (reject .illegal s) else exec i s := by
  by_cases hz : rz = 0
  · rw [if_neg (not_not_intro hz), acceptWord_ok (h.trans (if_pos hz))]
  · rw [if_pos hz, acceptWord_error (h.trans (if_neg hz))]

theorem whenInRange_of_iff {b : Bool} {p : Prop} [Decidable p] (h : b = true ↔ ¬p) (s : State)
    (r : Result) : whenInRange b s r = if p then .next (reject .range s) else r := by
  by_cases hp : p <;> simp [whenInRange, h, hp]

theorem indexInRange_iff (index : BitVec 8) :
    indexInRange index = true ↔ ¬Config.msgMax ≤ index.toNat := by simp [indexInRange]

theorem lenInRange_iff (len : BitVec 9) :
    lenInRange len = true ↔ ¬Config.msgMax < len.toNat := by simp [lenInRange]

/-- WRMSG's checks after the decoder's: BUSY, then RANGE (43_commands.md R184). -/
theorem exec_wrmsg (index : BitVec 8) (byte : Byte) (s : State) :
    exec (.wrmsg index byte) s =
      if s.phase = .run then .next (reject .busy s)
      else if Config.msgMax ≤ index.toNat then .next (reject .range s)
      else .next { s with msg := Memory.write s.msg index.toNat byte } := by
  rw [← whenInRange_of_iff (indexInRange_iff index)]
  rfl

/-- SETLEN's checks after the decoder's: BUSY, then RANGE (43_commands.md R185). -/
theorem exec_setlen (len : BitVec 9) (s : State) :
    exec (.setlen len) s =
      if s.phase = .run then .next (reject .busy s)
      else if Config.msgMax < len.toNat then .next (reject .range s)
      else .next { s with len := len } := by
  rw [← whenInRange_of_iff (lenInRange_iff len)]
  rfl

/-- A mode is taken from a bit, and selects its dit register (30_encoding.md R74). -/
theorem selectedDit_modeOfBit (b : BitVec 1) (s : State) :
    selectedDit (modeOfBit b) s = if b = 0 then s.ditCw else s.ditQrss := by
  unfold modeOfBit
  split <;> rfl

/-- A START that answers has begun the RUN (43_commands.md R188). -/
theorem exec_start_next {s t : State} {mode : KeyingMode} (hp : s.phase = .idle)
    (h : exec (.start mode) s = .next t) : t = beginRun mode s := by
  cases hf : firstUnwritten s with
  | some a =>
    rw [exec_start_of_unwritten hp hf] at h
    cases h
  | none =>
    rw [exec_start_of_written hp ((firstUnwritten_eq_none_iff s).mp hf)] at h
    cases h
    rfl

/-- A byte at or above `LEN` is no part of the message (20_memory.md R51). -/
theorem message_write_of_le {s : State} {a : Nat} (h : s.len.toNat ≤ a) (b : Byte) :
    message { s with msg := Memory.write s.msg a b } = message s :=
  message_congr rfl fun _ hc => Memory.read_write_other s.msg b (hc.trans_le h).ne

/-- A RUN whose dit is 0 can only end, with InvalidDit (41_message_encoder.md R133). -/
theorem run_of_ditL_zero {s : State} (hp : s.phase = .run) (hv : s.valid = false) (hd : s.ditL = 0)
    (par : Config.Params) :
    presentEnabled par s = false ∧ finishEnabled par s = true ∧
      (finish par s s).encErr = .invalidDit := by
  have hseq : seq par s = .err .invalidDit := seq_of_ditL_zero hd
  simp [presentEnabled, finishEnabled, finish, reportResult, busy, hp, hv, hseq]

/-! ## A command's match and mask (30_encoding.md R76) -/

/-- The match and mask of a row whose format has one must-be-zero field. -/
theorem and_mask_eq_match_iff {op : BitVec 4} {lo width : Nat} {matchWord mask : Word}
    (hrow : ⟨op, matchWord, mask⟩ ∈ opcodeRows) (hfits : lo + width ≤ 32)
    (hmask : mustBeZero op = fieldMask lo width) (w : Word) :
    w &&& mask = matchWord ↔ opField w = op ∧ field w lo width = 0 := by
  obtain ⟨-, -, -, -, hlegal⟩ := mask_and_match_of_mem hrow
  have hselects := selects_iff hrow w
  rw [OpcodeRow.selects, beq_iff_eq] at hselects
  rw [hselects]
  refine and_congr_right fun hop => ?_
  rw [← Bool.not_eq_true, illegalWord_iff, hop, hmask, ← and_fieldMask_eq_zero_iff w hfits]
  simp [hlegal]

/-! ## The statements -/

/-- Settles O9: WRMSG's checks in their order, and the laws of the message buffer after a write. -/
theorem wrmsgWordStoresOneByteOrIsRejected : Obligations.WrmsgWordStoresOneByteOrIsRejected := by
  unfold Obligations.WrmsgWordStoresOneByteOrIsRejected
  refine ⟨fun w s hop => ?_,
    and_mask_eq_match_iff (by simp [opcodeRows]) (by norm_num) rfl,
    Memory.read_write, Memory.written_write, fun s a b h => message_write_of_le h b⟩
  rw [acceptWord_of_requireZero (decode_of_opField_wrmsg hop), exec_wrmsg]
  rfl

/-- Settles O12: START's checks in order, the elements `beginRun` writes, and `SEQ` over them. -/
theorem startWordBeginsARunOrIsRejected : Obligations.StartWordBeginsARunOrIsRejected := by
  unfold Obligations.StartWordBeginsARunOrIsRejected
  refine ⟨fun w s hop => ?_,
    and_mask_eq_match_iff (by simp [opcodeRows]) (by norm_num) rfl, fun par s t mode hp h => ?_⟩
  · rw [acceptWord_of_requireZero (decode_of_opField_start hop), ← selectedDit_modeOfBit]
    rfl
  · rw [exec_start_next hp h]
    rfl

/-- Settles O10: SETLEN's checks in their order. -/
theorem setlenWordSetsLenOrIsRejected : Obligations.SetlenWordSetsLenOrIsRejected := by
  unfold Obligations.SetlenWordSetsLenOrIsRejected
  refine ⟨fun w s hop => ?_, and_mask_eq_match_iff (by simp [opcodeRows]) (by norm_num) rfl⟩
  rw [acceptWord_of_requireZero (decode_of_opField_setlen hop), exec_setlen]
  rfl

/-- Settles O11: the format has no must-be-zero field, so only the busy lock rejects; a START
latches the zero dit. -/
theorem ditWordsSetTheirRegister : Obligations.DitWordsSetTheirRegister := by
  unfold Obligations.DitWordsSetTheirRegister
  refine ⟨fun w s hop => ?_, fun w s hop => ?_, fun w => ⟨?_, ?_⟩, fun par s t mode hp hdit h => ?_⟩
  · exact acceptWord_ok (decode_of_opField_setditcw hop) s
  · exact acceptWord_ok (decode_of_opField_setditqrss hop) s
  · exact and_fieldMask_eq_iff w (lo := 28) (width := 4) (by norm_num) 0x3
  · exact and_fieldMask_eq_iff w (lo := 28) (width := 4) (by norm_num) 0x4
  · rw [exec_start_next hp h]
    exact run_of_ditL_zero rfl rfl hdit par

/-- Settles O13: the must-be-zero check is the only one. -/
theorem clrerrAndNopWordsInAnyPhase : Obligations.ClrerrAndNopWordsInAnyPhase := by
  unfold Obligations.ClrerrAndNopWordsInAnyPhase
  refine ⟨fun w s hop => ?_, fun w s hop => ?_, fun w => ⟨?_, ?_⟩⟩
  · exact acceptWord_of_requireZero (decode_of_opField_clrerr hop) s
  · exact acceptWord_of_requireZero (decode_of_opField_nop hop) s
  · exact and_mask_eq_match_iff (by simp [opcodeRows]) (by norm_num) rfl w
  · exact and_mask_eq_match_iff (by simp [opcodeRows]) (by norm_num) rfl w

/-- Settles O14: every index of 8 bits is in range. -/
theorem wrmsgCompletes : Obligations.WrmsgCompletes := by
  unfold Obligations.WrmsgCompletes
  refine fun s index byte hp => ⟨?_, fun a => Memory.read_write s.msg index.toNat a byte⟩
  simp only [exec_idle hp, indexInRange_true, if_true]

/-- Settles O15: in IDLE only SETLEN's range check can reject. -/
theorem settersComplete : Obligations.SettersComplete := by
  unfold Obligations.SettersComplete
  refine fun s hp => ⟨fun len => ?_, fun dit => exec_idle hp (.setditcw dit),
    fun dit => exec_idle hp (.setditqrss dit)⟩
  simp only [exec_idle hp, lenInRange, decide_eq_true_iff]
  rfl

/-- Settles O16: START over a written message begins the RUN. -/
theorem startCompletes : Obligations.StartCompletes := by
  unfold Obligations.StartCompletes
  exact fun s mode hp hw => exec_start_of_written hp hw mode

/-- Settles O17: neither command is locked in RUN. -/
theorem clrerrAndNopComplete : Obligations.ClrerrAndNopComplete := by
  unfold Obligations.ClrerrAndNopComplete
  exact fun s => ⟨rfl, rfl⟩

end Sys2Proof.Machine

/-! The statements about the clock edge: what an edge in RUN does in each of its cases, how a RUN
goes on and how it ends, and what stops a step. -/

namespace Sys2Proof.Machine

/-! ## The symbol side, case by case (43_commands.md R200-R203) -/

theorem symbolSide_transfer {par : Config.Params} {pre : State} {sym : TimedSymbol}
    (hv : pre.valid = true) (hs : symbolAtP par pre = some sym) (choice : Choice) (u : State) :
    symbolSide par choice true pre u =
      .next (transferSymbol sym (anotherFollows par pre && choice.follow) pre u) := by
  simp [symbolSide, transfer, hv, hs]

theorem presentEnabled_of_valid {par : Config.Params} {s : State} (hv : s.valid = true) :
    presentEnabled par s = false := by
  rw [Bool.eq_false_iff, Ne, presentEnabled_iff]
  simp [hv]

theorem finishEnabled_of_valid {par : Config.Params} {s : State} (hv : s.valid = true) :
    finishEnabled par s = false := by
  rw [Bool.eq_false_iff, Ne, finishEnabled_iff]
  simp [hv]

theorem presentEnabled_of_err {par : Config.Params} {s : State} {e : EncodeError}
    (he : seq par s = .err e) : presentEnabled par s = false := by simp [presentEnabled, he]

theorem finishEnabled_of_err {par : Config.Params} {s : State} {e : EncodeError}
    (hp : s.phase = .run) (hv : s.valid = false) (he : seq par s = .err e) :
    finishEnabled par s = true := by simp [finishEnabled, he, busy, hp, hv]

theorem finishEnabled_of_end {par : Config.Params} {s : State} {L : List TimedSymbol}
    (hp : s.phase = .run) (hv : s.valid = false) (hseq : seq par s = .ok L)
    (hend : s.p.toNat = L.length) : finishEnabled par s = true := by
  simp [finishEnabled, hseq, busy, hp, hv, hend]

/-- PRESENT and FINISH are not enabled together. -/
theorem presentEnabled_of_finishEnabled {par : Config.Params} {s : State}
    (h : finishEnabled par s = true) : presentEnabled par s = false := by
  obtain ⟨-, -, hend⟩ := (finishEnabled_iff par s).mp h
  rw [Bool.eq_false_iff, Ne, presentEnabled_iff, Option.isSome_iff_exists]
  rintro ⟨-, -, sym, hs⟩
  obtain ⟨L, hseq, hsym⟩ := symbolAtP_eq_some_iff.mp hs
  obtain ⟨hlt, -⟩ := List.getElem?_eq_some_iff.mp hsym
  exact absurd (hend L hseq) hlt.ne

/-- A symbol that is presented and not taken stays (43_commands.md R201). -/
theorem symbolSide_of_held {par : Config.Params} {pre : State} (hv : pre.valid = true)
    (choice : Choice) (u : State) : symbolSide par choice false pre u = .next (quiet u) := by
  simp [symbolSide, presentEnabled_of_valid hv, finishEnabled_of_valid hv]

theorem symbolSide_of_presentEnabled {par : Config.Params} {pre : State}
    (h : presentEnabled par pre = true) (choice : Choice) (ready : Bool) (u : State) :
    symbolSide par choice ready pre u =
      .next (if stepDue par choice pre then present u else stall pre u) := by
  obtain ⟨-, hv, -⟩ := (presentEnabled_iff par pre).mp h
  simp [symbolSide, hv, h]

theorem symbolSide_of_finishEnabled {par : Config.Params} {pre : State}
    (h : finishEnabled par pre = true) (choice : Choice) (ready : Bool) (u : State) :
    symbolSide par choice ready pre u =
      .next (if stepDue par choice pre then finish par pre u else stall pre u) := by
  obtain ⟨-, hv, -⟩ := (finishEnabled_iff par pre).mp h
  simp [symbolSide, hv, h, presentEnabled_of_finishEnabled h]

/-- The symbol side writes no input of the encoding (43_commands.md R200-R202). -/
theorem symbolSide_keeps_encoding_inputs {par : Config.Params} {choice : Choice} {ready : Bool}
    {pre u t : State} (h : symbolSide par choice ready pre u = .next t) :
    t.msg = u.msg ∧ t.len = u.len ∧ t.ditCw = u.ditCw ∧ t.ditQrss = u.ditQrss ∧
      t.modeL = u.modeL ∧ t.ditL = u.ditL ∧ t.inputs = u.inputs := by
  rcases symbolSide_next h with ⟨-, -, sym, -, rfl⟩ | ⟨-, -, rfl⟩ | ⟨-, -, rfl⟩ |
    ⟨-, -, rfl⟩ | ⟨-, -, rfl⟩
  all_goals simp

/-- The symbol side ends a RUN by FINISH alone (43_commands.md R202). -/
theorem symbolSide_ends_run_by_finish {par : Config.Params} {choice : Choice} {ready : Bool}
    {pre u t : State} (h : symbolSide par choice ready pre u = .next t) :
    (t.phase = u.phase ∧ t.done = u.done) ∨
      (finishEnabled par pre = true ∧ t = finish par pre u) := by
  rcases symbolSide_next h with ⟨-, -, sym, -, rfl⟩ | ⟨-, -, rfl⟩ | ⟨he, -, rfl⟩ |
    ⟨-, -, rfl⟩ | ⟨-, -, rfl⟩
  · exact .inl ⟨rfl, rfl⟩
  · exact .inl ⟨rfl, rfl⟩
  · exact .inr ⟨he, rfl⟩
  · exact .inl ⟨rfl, rfl⟩
  · exact .inl ⟨rfl, rfl⟩

/-- Where `VALID = 1` implies a symbol at `P` (10_state.md R29), the symbol side does not stop. -/
theorem symbolSide_answers {par : Config.Params} {pre : State} (h : validPresents par pre)
    (choice : Choice) (ready : Bool) (u : State) :
    ∃ t, symbolSide par choice ready pre u = .next t := by
  cases hv : pre.valid with
  | true =>
    cases ready with
    | true =>
      obtain ⟨-, hsome⟩ := h hv
      obtain ⟨sym, hs⟩ := Option.isSome_iff_exists.mp hsome
      exact ⟨_, symbolSide_transfer hv hs choice u⟩
    | false => exact ⟨_, symbolSide_of_held hv choice u⟩
  | false =>
    simp only [symbolSide, hv, Bool.false_and, Bool.false_eq_true, if_false]
    split
    · exact ⟨_, rfl⟩
    · split <;> exact ⟨_, rfl⟩

/-! ## An edge in RUN

The symbol side reads the state before the edge, of which the bookkeeping of the edge changes
nothing it reads. -/

section RunEdge

variable {par : Config.Params} {s t : State}

theorem edgeWith_of_presentEnabled (h : presentEnabled par s = true)
    (hr : (nextInput s).rst = false) (choice : Choice) :
    edgeWith par choice s = .next (if stepDue par choice s then present (afterCommandInRun s)
      else stall s (afterCommandInRun s)) := by
  obtain ⟨hp, -, -⟩ := (presentEnabled_iff par s).mp h
  rw [edgeWith_run hp hr]
  exact symbolSide_of_presentEnabled (pre := consumeInput s) h _ _ _

theorem edgeWith_of_finishEnabled (h : finishEnabled par s = true) (hr : (nextInput s).rst = false)
    (choice : Choice) :
    edgeWith par choice s = .next (if stepDue par choice s then finish par s (afterCommandInRun s)
      else stall s (afterCommandInRun s)) := by
  obtain ⟨hp, -, -⟩ := (finishEnabled_iff par s).mp h
  rw [edgeWith_run hp hr]
  exact symbolSide_of_finishEnabled (pre := consumeInput s) h _ _ _

/-- An edge at which FINISH is enabled, taken and not taken (43_commands.md R202, R203). -/
theorem edgeWith_of_finishEnabled_cases (h : finishEnabled par s = true)
    (hr : (nextInput s).rst = false) (choice : Choice) :
    ((choice.takeStep = true ∨ par.latMax ≤ s.waited + 1) →
      edgeWith par choice s = .next (finish par s (afterCommandInRun s))) ∧
    (¬(choice.takeStep = true ∨ par.latMax ≤ s.waited + 1) →
      edgeWith par choice s = .next (stall s (afterCommandInRun s))) := by
  rw [edgeWith_of_finishEnabled h hr, ← stepDue_iff]
  exact ⟨fun hdue => by rw [if_pos hdue], fun hnotDue => by rw [if_neg hnotDue]⟩

theorem edgeWith_transfer {sym : TimedSymbol} (hp : s.phase = .run) (hr : (nextInput s).rst = false)
    (hv : s.valid = true) (hready : (nextInput s).symReady = true)
    (hs : symbolAtP par s = some sym) (choice : Choice) :
    edgeWith par choice s = .next (transferSymbol sym (anotherFollows par s && choice.follow) s
      (afterCommandInRun s)) := by
  rw [edgeWith_run hp hr, hready]
  exact symbolSide_transfer (pre := consumeInput s) hv hs _ _

theorem edgeWith_of_held (hp : s.phase = .run) (hr : (nextInput s).rst = false)
    (hv : s.valid = true) (hready : (nextInput s).symReady = false) (choice : Choice) :
    edgeWith par choice s = .next (quiet (afterCommandInRun s)) := by
  rw [edgeWith_run hp hr, hready]
  exact symbolSide_of_held (pre := consumeInput s) hv _ _

/-- An edge in RUN leaves the inputs of the encoding as they are (43_commands.md R183). -/
theorem edgeWith_run_keeps_encoding_inputs {choice : Choice} (hp : s.phase = .run)
    (hr : (nextInput s).rst = false) (h : edgeWith par choice s = .next t) :
    t.msg = s.msg ∧ t.len = s.len ∧ t.ditCw = s.ditCw ∧ t.ditQrss = s.ditQrss ∧
      t.modeL = s.modeL ∧ t.ditL = s.ditL ∧ t.inputs = s.inputs.tail :=
  symbolSide_keeps_encoding_inputs (edgeWith_run hp hr ▸ h)

/-- `SEQ` keeps its value over an edge in RUN (10_state.md R30). -/
theorem edgeWith_run_seq {choice : Choice} (hp : s.phase = .run) (hr : (nextInput s).rst = false)
    (h : edgeWith par choice s = .next t) : seq par t = seq par s := by
  obtain ⟨hmsg, hlen, -, -, hmode, hdit, -⟩ := edgeWith_run_keeps_encoding_inputs hp hr h
  exact seq_congr hmsg hlen hmode hdit

/-- Only FINISH ends a RUN without reset, and a RUN that goes on keeps `DONE`
(43_commands.md R183). -/
theorem edgeWith_run_ends_by_finish {choice : Choice} (hp : s.phase = .run)
    (hr : (nextInput s).rst = false) (h : edgeWith par choice s = .next t) :
    (t.phase = .run ∧ t.done = s.done) ∨
      (finishEnabled par s = true ∧ t = finish par s (afterCommandInRun s)) := by
  rcases symbolSide_ends_run_by_finish (edgeWith_run hp hr ▸ h) with ⟨hphase, hdone⟩ | hfinish
  · exact .inl ⟨hphase.trans hp, hdone⟩
  · exact .inr hfinish

end RunEdge

/-! ## An edge outside a RUN -/

theorem edgeWith_of_decode {par : Config.Params} {choice : Choice} {s : State} {i : Instr}
    (hr : (nextInput s).rst = false) (hc : (nextInput s).cmdValid = true)
    (hd : decode (nextInput s).cmdWord = .ok i) :
    edgeWith par choice s = andThen (exec i (consumeInput s))
      (symbolSide par choice (nextInput s).symReady (consumeInput s)) := by
  rw [edgeWith_noReset hr, commandSide, if_pos hc, acceptWord_ok hd]

theorem edgeWith_of_illegalWord {par : Config.Params} {choice : Choice} {s : State}
    (hr : (nextInput s).rst = false) (hc : (nextInput s).cmdValid = true)
    (hw : illegalWord (nextInput s).cmdWord = true) :
    edgeWith par choice s = symbolSide par choice (nextInput s).symReady (consumeInput s)
      (reject .illegal (consumeInput s)) := by
  obtain ⟨e, he⟩ := (decode_eq_error_iff _).mpr hw
  rw [edgeWith_noReset hr, commandSide, if_pos hc, acceptWord_error he, andThen_of_next]

/-- An offered command is refused only when it is a START in IDLE over an unwritten byte
(10_state.md R36). -/
theorem commandSide_refused {input : EdgeInput} {s : State} {r : Refusal}
    (h : commandSide input s = .refused r) :
    input.cmdValid = true ∧ s.phase = .idle ∧ ∃ mode a, decode input.cmdWord = .ok (.start mode) ∧
      firstUnwritten s = some a ∧ r = .unwrittenMessageByte a := by
  unfold commandSide acceptWord at h
  split at h
  · split at h
    · obtain ⟨hp, mode, a, rfl, hf, rfl⟩ := exec_refused h
      exact ⟨‹_›, hp, mode, a, ‹_›, hf, rfl⟩
    · cases h
  · cases h

/-! ## The run invariant at an edge -/

section Invariant

variable {par : Config.Params} {s t : State}

theorem RunInvariant.presented_symbol (h : RunInvariant par s) (hv : s.valid = true) :
    s.phase = .run ∧ ∃ sym, symbolAtP par s = some sym := by
  obtain ⟨-, -, hvalid, -⟩ := h
  obtain ⟨hp, hs⟩ := hvalid hv
  exact ⟨hp, Option.isSome_iff_exists.mp hs⟩

theorem RunInvariant.position_of_ok (h : RunInvariant par s) (hp : s.phase = .run)
    {L : List TimedSymbol} (hseq : seq par s = .ok L) :
    s.p.toNat ≤ L.length ∧ s.taken = (L.take s.p.toNat).map TimedSymbol.word := by
  obtain ⟨-, -, -, -, hpos, -⟩ := h
  exact (positionMatches_of_ok hseq).mp (hpos hp)

theorem RunInvariant.taken_of_err (h : RunInvariant par s) (hp : s.phase = .run) {e : EncodeError}
    (hseq : seq par s = .err e) : s.taken = [] := by
  obtain ⟨-, -, -, -, hpos, -⟩ := h
  have hmatches := hpos hp
  simp only [positionMatches, hseq, decide_eq_true_eq] at hmatches
  exact hmatches.2

/-- In RUN the status fields of the encoding are clear (43_commands.md R188). -/
theorem RunInvariant.run_status (h : RunInvariant par s) (hp : s.phase = .run) :
    s.encErr = .noError ∧ s.errIndex = 0 ∧ s.errByte = 0 := by
  obtain ⟨-, -, -, hinputs, -, ⟨-, hfields⟩, -⟩ := h
  obtain ⟨-, -, -, hnoError⟩ := hinputs hp
  exact ⟨hnoError, hfields (by simp [hnoError])⟩

theorem RunInvariant.waited_lt (h : RunInvariant par s) : s.waited < par.latMax := by
  obtain ⟨-, -, -, -, -, -, hwaited⟩ := h
  exact hwaited

/-- `P` counts without wrapping, since `SEQ` is short enough (10_state.md R28). -/
theorem RunInvariant.p_succ_toNat (h : RunInvariant par s) {L : List TimedSymbol}
    (hseq : seq par s = .ok L) (hlt : s.p.toNat < L.length) :
    (s.p + 1).toNat = s.p.toNat + 1 := by
  obtain ⟨-, hlen, -⟩ := h
  have hL := seq_length_le hseq
  simp only [Config.msgMax] at hlen
  bv_omega

/-- An edge in RUN answers a next state: no command is refused there, and no transfer is without a
symbol. -/
theorem RunInvariant.edgeWith_run_answers (h : RunInvariant par s) (hp : s.phase = .run)
    (hr : (nextInput s).rst = false) (choice : Choice) : ∃ t, edgeWith par choice s = .next t := by
  obtain ⟨-, -, hvalid, -⟩ := h
  rw [edgeWith_run hp hr]
  exact symbolSide_answers (pre := consumeInput s) hvalid _ _ _

end Invariant

/-! ## The end of a RUN (43_commands.md R204) -/

/-- What a RUN over the encoding `r` has left when it ended: the symbols taken, and the report. -/
def ReportsEncoding (r : EncodeResult) (t : State) : Prop :=
  match r with
  | .ok L => t.taken = L.map TimedSymbol.word ∧ t.encErr = .noError
  | .err .invalidDit =>
    t.taken = [] ∧ t.encErr = .invalidDit ∧ t.errIndex = 0 ∧ t.errByte = 0
  | .err (.unsupportedCharacter k b) =>
    t.taken = [] ∧ t.encErr = .unsupportedChar ∧ t.errIndex = BitVec.ofNat 8 k ∧ t.errByte = b

/-- FINISH of a state with the invariant: `P` is at the end of `SEQ`, so all of it was taken. -/
theorem RunInvariant.reportsEncoding_of_finish {par : Config.Params} {s : State}
    (h : RunInvariant par s) (he : finishEnabled par s = true) :
    ReportsEncoding (seq par s) (finish par s (afterCommandInRun s)) := by
  obtain ⟨hp, -, hend⟩ := (finishEnabled_iff par s).mp he
  obtain ⟨hencErr, herrIndex, herrByte⟩ := h.run_status hp
  unfold finish
  cases hseq : seq par s with
  | ok L =>
    obtain ⟨-, htaken⟩ := h.position_of_ok hp hseq
    rw [hend L hseq, List.take_length] at htaken
    exact ⟨htaken, hencErr⟩
  | err e =>
    have htaken := h.taken_of_err hp hseq
    cases e with
    | invalidDit => exact ⟨htaken, rfl, herrIndex, herrByte⟩
    | unsupportedCharacter k b => exact ⟨htaken, rfl, rfl, rfl⟩

/-- An edge without reset that ends a RUN. -/
theorem RunInvariant.edgeWith_ends_run {par : Config.Params} {choice : Choice} {s t : State}
    (h : RunInvariant par s) (hp : s.phase = .run) (hr : (nextInput s).rst = false)
    (ht : edgeWith par choice s = .next t) (hidle : t.phase = .idle) :
    t.done = true ∧ ReportsEncoding (seq par s) t := by
  rcases edgeWith_run_ends_by_finish hp hr ht with ⟨hrun, -⟩ | ⟨he, rfl⟩
  · cases hrun.symm.trans hidle
  · exact ⟨finish_done par s _, h.reportsEncoding_of_finish he⟩

/-! ## An enabled step is taken within the bound (43_commands.md R203) -/

/-- The enabled internal step of `s` has been taken in `t`. -/
def StepTaken (par : Config.Params) (s t : State) : Prop :=
  if presentEnabled par s = true then t.valid = true ∧ t.p = s.p
  else t.phase = .idle ∧ t.done = true

/-- An edge at which a step is enabled takes it when due, and else only counts. -/
theorem edgeWith_of_enabled {par : Config.Params} {s : State}
    (h : presentEnabled par s = true ∨ finishEnabled par s = true)
    (hr : (nextInput s).rst = false) (choice : Choice) :
    (stepDue par choice s = true ∧ ∃ t, edgeWith par choice s = .next t ∧ StepTaken par s t) ∨
      (stepDue par choice s = false ∧
        edgeWith par choice s = .next (stall s (afterCommandInRun s))) := by
  cases hdue : stepDue par choice s with
  | true =>
    refine .inl ⟨rfl, ?_⟩
    rcases h with he | he
    · rw [edgeWith_of_presentEnabled he hr, if_pos hdue]
      exact ⟨_, rfl, by simp [StepTaken, he, afterCommandInRun]⟩
    · rw [edgeWith_of_finishEnabled he hr, if_pos hdue]
      exact ⟨_, rfl, by simp [StepTaken, presentEnabled_of_finishEnabled he]⟩
  | false =>
    refine .inr ⟨rfl, ?_⟩
    rcases h with he | he
    · rw [edgeWith_of_presentEnabled he hr, hdue]
      rfl
    · rw [edgeWith_of_finishEnabled he hr, hdue]
      rfl

theorem nextInput_noReset {s : State} {n : Nat}
    (h : ∀ input ∈ s.inputs.take (n + 1), input.rst = false) :
    (nextInput s).rst = false ∧ ∀ input ∈ s.inputs.tail.take n, input.rst = false := by
  unfold nextInput
  cases hi : s.inputs with
  | nil => simp [idleInput]
  | cons input rest => simpa [hi] using h

/-- With `n` edges more to wait at most, an enabled step is taken at one of the next `n + 1` edges,
by induction on `n`: a stall leaves the same step enabled and one edge fewer to wait. -/
theorem run_takes_enabled_step (n : Nat) : ∀ s : State,
    (presentEnabled Config.params s = true ∨ finishEnabled Config.params s = true) →
    Config.params.latMax ≤ s.waited + (n + 1) →
    (∀ input ∈ s.inputs.take (n + 1), input.rst = false) →
      ∃ k t, k < n + 1 ∧ Host.Core.run Sys2Proof.core (k + 1) s = .next t ∧
        StepTaken Config.params s t := by
  induction n with
  | zero =>
    intro s he hwait hin
    obtain ⟨hr, -⟩ := nextInput_noReset hin
    rcases edgeWith_of_enabled he hr (drawnChoice s.draws) with ⟨-, t, ht, htaken⟩ | ⟨hdue, -⟩
    · exact ⟨0, t, by omega, run_succ ht 0, htaken⟩
    · simp [stepDue, hwait] at hdue
  | succ n ih =>
    intro s he hwait hin
    obtain ⟨hr, hrest⟩ := nextInput_noReset hin
    rcases edgeWith_of_enabled he hr (drawnChoice s.draws) with ⟨-, t, ht, htaken⟩ | ⟨-, ht⟩
    · exact ⟨0, t, by omega, run_succ ht 0, htaken⟩
    · obtain ⟨k, t, hk, hrun, htaken⟩ := ih (stall s (afterCommandInRun s)) he
        (by rw [stall_waited]; omega) hrest
      exact ⟨k + 1, t, by omega, (run_succ ht (k + 1)).trans hrun, htaken⟩

/-! ## A RUN with a ready host ends (43_commands.md R204) -/

/-- How many symbols are still to be taken. -/
def symbolsLeft (par : Config.Params) (s : State) : Nat :=
  match seq par s with
  | .ok L => L.length - s.p.toNat
  | .err _ => 0

/-- For how many edges at most a RUN goes on with a ready host: `LAT_MAX` for PRESENT and one for
the transfer of each symbol left, and those left of the step that is awaited. -/
def edgesLeft (par : Config.Params) (s : State) : Nat :=
  symbolsLeft par s * (par.latMax + 1) + if s.valid then 0 else par.latMax - s.waited

section ReadyHost

variable {par : Config.Params} {choice : Choice} {s t : State}

theorem symbolsLeft_pos {sym : TimedSymbol} (hs : symbolAtP par s = some sym) :
    0 < symbolsLeft par s := by
  obtain ⟨L, hseq, hsym⟩ := symbolAtP_eq_some_iff.mp hs
  obtain ⟨hlt, -⟩ := List.getElem?_eq_some_iff.mp hsym
  simp only [symbolsLeft, hseq]
  omega

theorem symbolsLeft_congr (hseq : seq par t = seq par s) (hp : t.p = s.p) :
    symbolsLeft par t = symbolsLeft par s := by rw [symbolsLeft, symbolsLeft, hseq, hp]

theorem edgesLeft_le (par : Config.Params) (s : State) :
    edgesLeft par s ≤ symbolsLeft par s * (par.latMax + 1) + par.latMax := by
  unfold edgesLeft
  split <;> omega

theorem edgesLeft_of_valid (hv : s.valid = true) :
    edgesLeft par s = symbolsLeft par s * (par.latMax + 1) := by simp [edgesLeft, hv]

theorem edgesLeft_of_not_valid (hv : s.valid = false) :
    edgesLeft par s = symbolsLeft par s * (par.latMax + 1) + (par.latMax - s.waited) := by
  simp [edgesLeft, hv]

theorem RunInvariant.edgesLeft_pos (h : RunInvariant par s) : 0 < edgesLeft par s := by
  cases hv : s.valid with
  | true =>
    obtain ⟨-, sym, hs⟩ := h.presented_symbol hv
    rw [edgesLeft_of_valid hv]
    exact Nat.mul_pos (symbolsLeft_pos hs) (Nat.succ_pos par.latMax)
  | false =>
    have hwaited := h.waited_lt
    rw [edgesLeft_of_not_valid hv]
    omega

/-- A transfer leaves one symbol fewer, and so fewer edges, even when PRESENT then takes its whole
bound. -/
theorem RunInvariant.edgesLeft_transferSymbol (h : RunInvariant par s) {sym : TimedSymbol}
    (hv : s.valid = true) (hs : symbolAtP par s = some sym) (validAfter : Bool) :
    edgesLeft par (transferSymbol sym validAfter s (afterCommandInRun s)) < edgesLeft par s := by
  obtain ⟨L, hseq, hsym⟩ := symbolAtP_eq_some_iff.mp hs
  obtain ⟨hlt, -⟩ := List.getElem?_eq_some_iff.mp hsym
  set t := transferSymbol sym validAfter s (afterCommandInRun s)
  have htseq : seq par t = .ok L := hseq
  have htp : t.p.toNat = s.p.toNat + 1 := h.p_succ_toNat hseq hlt
  have hfewer : symbolsLeft par s = symbolsLeft par t + 1 := by
    simp only [symbolsLeft, hseq, htseq, htp]
    omega
  calc edgesLeft par t
      ≤ symbolsLeft par t * (par.latMax + 1) + par.latMax := edgesLeft_le par t
    _ < (symbolsLeft par t + 1) * (par.latMax + 1) := by rw [Nat.succ_mul]; omega
    _ = edgesLeft par s := by simp [edgesLeft, hv, hfewer]

/-- In RUN with nothing presented, PRESENT or FINISH is enabled (43_commands.md R201, R202). -/
theorem RunInvariant.enabled_of_not_valid (h : RunInvariant par s) (hp : s.phase = .run)
    (hv : s.valid = false) : presentEnabled par s = true ∨ finishEnabled par s = true := by
  rw [presentEnabled_iff, finishEnabled_iff]
  cases hs : symbolAtP par s with
  | some sym => exact .inl ⟨hp, hv, rfl⟩
  | none =>
    refine .inr ⟨hp, hv, fun L hseq => ?_⟩
    obtain ⟨hle, -⟩ := h.position_of_ok hp hseq
    simp only [symbolAtP, hseq, List.getElem?_eq_none_iff] at hs
    exact le_antisymm hle hs

/-- Every edge with a ready host ends the RUN or leaves fewer edges. -/
theorem RunInvariant.edgesLeft_decreases (h : RunInvariant par s) (hp : s.phase = .run)
    (hr : (nextInput s).rst = false) (hready : (nextInput s).symReady = true)
    (ht : edgeWith par choice s = .next t) :
    t.phase = .idle ∨ edgesLeft par t < edgesLeft par s := by
  cases hv : s.valid with
  | true =>
    obtain ⟨-, sym, hs⟩ := h.presented_symbol hv
    rw [edgeWith_transfer hp hr hv hready hs] at ht
    cases ht
    exact .inr (h.edgesLeft_transferSymbol hv hs _)
  | false =>
    have hleft := symbolsLeft_congr (par := par) (s := s) (edgeWith_run_seq hp hr ht)
    have hwaited := h.waited_lt
    rw [edgesLeft_of_not_valid hv]
    rcases edgeWith_of_enabled (h.enabled_of_not_valid hp hv) hr choice with
      ⟨-, u, hu, htaken⟩ | ⟨-, hu⟩
    · obtain rfl : u = t := by simpa [hu] using ht
      rw [StepTaken] at htaken
      split at htaken
      · obtain ⟨huv, hup⟩ := htaken
        rw [edgesLeft_of_valid huv, hleft hup]
        exact .inr (by omega)
      · exact .inl htaken.1
    · obtain rfl : stall s (afterCommandInRun s) = t := by simpa [hu] using ht
      have htv : (stall s (afterCommandInRun s)).valid = false := hv
      rw [edgesLeft_of_not_valid htv, hleft rfl, stall_waited]
      exact .inr (by omega)

end ReadyHost

/-- A RUN with the invariant ends within the edges left to it while the host only takes symbols, by
induction on them. -/
theorem run_ends_with_ready_host (n : Nat) : ∀ (s : State) (rest : List EdgeInput),
    RunInvariant Config.params s → s.phase = .run →
    s.inputs = List.replicate n readyInput ++ rest → edgesLeft Config.params s ≤ n →
      ∃ k t, k ≤ n ∧ Host.Core.run Sys2Proof.core k s = .next t ∧ t.phase = .idle ∧
        t.done = true ∧ ReportsEncoding (seq Config.params s) t := by
  induction n with
  | zero =>
    intro s rest h hp hin hleft
    exact absurd h.edgesLeft_pos (Nat.not_lt.mpr hleft)
  | succ n ih =>
    intro s rest h hp hin hleft
    have hnext : nextInput s = readyInput := by rw [nextInput, hin]; rfl
    have hr : (nextInput s).rst = false := by rw [hnext]; rfl
    have hready : (nextInput s).symReady = true := by rw [hnext]; rfl
    obtain ⟨t, ht⟩ := h.edgeWith_run_answers hp hr (drawnChoice s.draws)
    cases htp : t.phase with
    | idle => exact ⟨1, t, by omega, run_succ ht 0, htp, h.edgeWith_ends_run hp hr ht htp⟩
    | run =>
      obtain ⟨-, -, -, -, -, -, hinputs⟩ := edgeWith_run_keeps_encoding_inputs hp hr ht
      have hfewer : edgesLeft Config.params t < edgesLeft Config.params s :=
        (h.edgesLeft_decreases hp hr hready ht).resolve_left (by simp [htp])
      obtain ⟨k, u, hk, hrun, hend⟩ := ih t rest (h.after_edgeWith ht) htp
        (by rw [hinputs, hin]; rfl) (by omega)
      rw [edgeWith_run_seq hp hr ht] at hend
      exact ⟨k + 1, u, by omega, (run_succ ht k).trans hrun, hend⟩

/-! ## The statements -/

/-- Settles O20: an edge in RUN writes no input of the encoding, and FINISH alone leaves RUN. -/
theorem runIsLockedAgainstCommands : Obligations.RunIsLockedAgainstCommands := by
  unfold Obligations.RunIsLockedAgainstCommands
  refine ⟨fun w i s hp hd => ?_, fun par choice s t hp hr h => ?_⟩
  · rw [acceptWord_ok hd, exec_run hp]
    cases i <;> rfl
  · obtain ⟨hmsg, hlen, hcw, hqrss, hmode, hdit, -⟩ := edgeWith_run_keeps_encoding_inputs hp hr h
    refine ⟨hmsg, hlen, hcw, hqrss, hmode, hdit, edgeWith_run_seq hp hr h, ?_⟩
    rcases edgeWith_run_ends_by_finish hp hr h with ⟨hrun, -⟩ | ⟨he, rfl⟩
    · exact .inl hrun
    · exact .inr ⟨he, finish_done par s _⟩

/-- Settles O23: the invariant gives the symbol at `P` and what was taken before it. -/
theorem transferTakesTheSymbolAtP : Obligations.TransferTakesTheSymbolAtP := by
  unfold Obligations.TransferTakesTheSymbolAtP
  intro par choice s h hr hv hready
  obtain ⟨hp, sym, hs⟩ := h.presented_symbol hv
  obtain ⟨L, hseq, hsym⟩ := symbolAtP_eq_some_iff.mp hs
  obtain ⟨hlt, -⟩ := List.getElem?_eq_some_iff.mp hsym
  obtain ⟨-, htaken⟩ := h.position_of_ok hp hseq
  refine ⟨L, sym, hseq, hsym, htaken, symWordPort_of_valid hv hs, h.p_succ_toNat hseq hlt, ?_⟩
  rw [edgeWith_transfer hp hr hv hready hs, anotherFollows, hseq]
  rfl

/-- Settles O24: PRESENT is enabled, and due exactly under the two conditions. -/
theorem presentEdgePresentsOrStalls : Obligations.PresentEdgePresentsOrStalls := by
  unfold Obligations.PresentEdgePresentsOrStalls
  intro par choice s L hr hp hv hseq hlt
  have he : presentEnabled par s = true :=
    (presentEnabled_iff par s).mpr ⟨hp, hv, by simp [symbolAtP, hseq, hlt]⟩
  rw [edgeWith_of_presentEnabled he hr, apply_ite Host.Outcome.next]
  simp only [stepDue_iff]
  rfl

/-- Settles O25: without its transfer a presented symbol is held, and a reset edge answers the reset
state. -/
theorem presentedSymbolIsStable : Obligations.PresentedSymbolIsStable := by
  unfold Obligations.PresentedSymbolIsStable
  refine fun par choice s h hv => ⟨fun hr hready => ?_, fun hr => ?_⟩
  · obtain ⟨hp, sym, hs⟩ := h.presented_symbol hv
    exact ⟨quiet (afterCommandInRun s), sym, edgeWith_of_held hp hr hv hready choice, hv, rfl, hs,
      symWordPort_of_valid hv hs, symWordPort_of_valid hv hs, rfl⟩
  · exact ⟨_, edgeWith_reset hr, rfl, rfl, rfl⟩

/-- Settles O26: where FINISH is enabled it reports `SEQ` or stalls, and a presented symbol keeps it
disabled. -/
theorem finishEdgeReportsOrStalls : Obligations.FinishEdgeReportsOrStalls := by
  unfold Obligations.FinishEdgeReportsOrStalls
  intro par choice s hr hp due stalled ended
  refine ⟨fun hv => ⟨fun L hseq hend => ?_, fun hseq => ?_, fun k b hseq => ?_⟩, fun hv t ht => ?_,
    fun e => presentEnabled_of_err⟩
  · have hcases :=
      edgeWith_of_finishEnabled_cases (finishEnabled_of_end hp hv hseq hend) hr choice
    rwa [finish, hseq] at hcases
  · have hcases := edgeWith_of_finishEnabled_cases (finishEnabled_of_err hp hv hseq) hr choice
    rwa [finish, hseq] at hcases
  · have hcases := edgeWith_of_finishEnabled_cases (finishEnabled_of_err hp hv hseq) hr choice
    rwa [finish, hseq] at hcases
  · refine (edgeWith_run_ends_by_finish hp hr ht).resolve_right fun ⟨he, _⟩ => ?_
    exact Bool.false_ne_true ((finishEnabled_of_valid hv).symm.trans he)

/-- Settles O30: in RUN an edge answers, and in IDLE only the command can stop it. -/
theorem stepStopsOnlyAtAnUnwrittenStart : Obligations.StepStopsOnlyAtAnUnwrittenStart := by
  unfold Obligations.StepStopsOnlyAtAnUnwrittenStart
  intro s h
  rw [step_eq]
  cases hr : (nextInput s).rst with
  | true => exact .inl ⟨_, edgeWith_reset hr⟩
  | false =>
    cases hp : s.phase with
    | run => exact .inl (h.edgeWith_run_answers hp hr _)
    | idle =>
      rw [edgeWith_noReset hr]
      cases hc : commandSide (nextInput s) (consumeInput s) with
      | next u => exact .inl ⟨_, symbolSide_idle (s := consumeInput s) u hp (h.idle_valid hp)⟩
      | fault e => exact absurd hc (commandSide_ne_fault _ _ _)
      | refused r =>
        obtain ⟨hvalid, -, mode, a, hd, hf, rfl⟩ := commandSide_refused hc
        obtain ⟨ha, hu, -⟩ := (firstUnwritten_eq_some_iff (consumeInput s) a).mp hf
        exact .inr ⟨rfl, hvalid, rfl, mode, a, hd, ha, hu, rfl⟩

/-- Settles O31: the edge is FINISH's, which reports `SEQ`. -/
theorem finishedRunTransferredTheSequence : Obligations.FinishedRunTransferredTheSequence := by
  unfold Obligations.FinishedRunTransferredTheSequence
  intro par choice s t h hp hr ht hidle
  obtain ⟨hdone, hreport⟩ := h.edgeWith_ends_run hp hr ht hidle
  refine ⟨hdone, fun L hseq => ?_, fun hseq => ?_, fun k b hseq => ?_⟩
  · rwa [hseq] at hreport
  · rwa [hseq] at hreport
  · rwa [hseq] at hreport

/-- Settles O32: at first `LAT_MAX` edges are left to wait at most. -/
theorem enabledStepIsTakenWithinLatMax : Obligations.EnabledStepIsTakenWithinLatMax := by
  unfold Obligations.EnabledStepIsTakenWithinLatMax
  exact fun s he hin =>
    run_takes_enabled_step Config.latMaxLessOne s he (Nat.le_add_left _ s.waited) hin

/-- Settles O33: the bound covers the edges left. -/
theorem readyHostSeesTheRunEnd : Obligations.ReadyHostSeesTheRunEnd := by
  unfold Obligations.ReadyHostSeesTheRunEnd
  refine fun s n rest h hp hin => ⟨fun L hseq hn => ?_, fun e hseq hn => ?_⟩
  · have hleft : edgesLeft Config.params s ≤ n :=
      (edgesLeft_le Config.params s).trans (by rwa [symbolsLeft, hseq])
    obtain ⟨k, t, hk, hrun, hidle, hdone, hreport⟩ :=
      run_ends_with_ready_host n s rest h hp hin hleft
    rw [hseq] at hreport
    obtain ⟨htaken, hnoError⟩ := hreport
    exact ⟨k, t, hk, hrun, hidle, hdone, hnoError, htaken⟩
  · have hleft : edgesLeft Config.params s ≤ n :=
      (edgesLeft_le Config.params s).trans (by simpa [symbolsLeft, hseq] using hn)
    obtain ⟨k, t, hk, hrun, hidle, hdone, hreport⟩ :=
      run_ends_with_ready_host n s rest h hp hin hleft
    rw [hseq] at hreport
    cases e with
    | invalidDit =>
      obtain ⟨htaken, hencErr, -⟩ := hreport
      exact ⟨k, t, hk, hrun, hidle, hdone, htaken, hencErr⟩
    | unsupportedCharacter index byte =>
      obtain ⟨htaken, hencErr, -⟩ := hreport
      exact ⟨k, t, hk, hrun, hidle, hdone, htaken, hencErr⟩

/-- Settles O21: the command side of the edge is `exec` of the decoded word or the rejection, and in
IDLE the symbol side does nothing. -/
theorem stepRunsTheDecodedCommand : Obligations.StepRunsTheDecodedCommand := by
  unfold Obligations.StepRunsTheDecodedCommand
  refine ⟨step_eq, fun par choice s i hr hc hd => ⟨edgeWith_of_decode hr hc hd, fun hp hv => ?_⟩,
    fun par choice s hr hc hw => ⟨edgeWith_of_illegalWord hr hc hw, fun hp hv => ?_⟩,
    fun s nbits w i hd => ⟨?_, rfl, rfl⟩⟩
  · rw [edgeWith_of_decode hr hc hd]
    exact congrArg (andThen _) (funext fun u => symbolSide_idle (s := consumeInput s) u hp hv)
  · rw [edgeWith_of_illegalWord hr hc hw]
    exact symbolSide_idle (s := consumeInput s) _ hp hv
  · have hword : (nextInput (s.withFetchWord nbits w)).cmdWord = tableWord nbits w := rfl
    rw [hword]
    unfold decodeTableWord at hd
    cases hdec : decode (tableWord nbits w) with
    | error e => simp [hdec, Except.toOption] at hd
    | ok j => simpa [hdec, Except.toOption] using hd

end Sys2Proof.Machine

/-! The statements about the exceptions: the order of a command's checks, and the edge in IDLE without
a command. -/

namespace Sys2Proof.Machine

theorem opField_of_decode {w : Word} {i : Instr} (h : decode w = .ok i) : opField w = i.opcode := by
  rw [← encode_of_decode_eq_ok h, opField_encode]

/-- The busy lock spares the opcodes of NOP and CLRERR alone (43_commands.md R183). -/
theorem exec_run_busy {s : State} {i : Instr} (hp : s.phase = .run) (hnop : i.opcode ≠ 0x0)
    (hclrerr : i.opcode ≠ 0x6) : exec i s = .next (reject .busy s) := by
  rw [exec_run hp]
  cases i with
  | nop => exact absurd rfl hnop
  | clrerr => exact absurd rfl hclrerr
  | _ => rfl

/-- A legal word with SETLEN's opcode is SETLEN of its low field (30_encoding.md R72). -/
theorem decode_setlen_of_legal {w : Word} (hw : illegalWord w = false) (hop : opField w = 0x2) :
    decode w = .ok (.setlen (field w 0 9)) := by
  obtain ⟨i, hi⟩ := (illegalWord_eq_false_iff w).mp hw
  have hzero := hi
  rw [decode_of_opField_setlen hop, requireZero_eq_ok_iff] at hzero
  obtain ⟨-, rfl⟩ := hzero
  exact hi

theorem edgeWith_of_noCommand {par : Config.Params} {choice : Choice} {s : State}
    (hr : (nextInput s).rst = false) (hc : (nextInput s).cmdValid = false) :
    edgeWith par choice s =
      symbolSide par choice (nextInput s).symReady (consumeInput s) (consumeInput s) := by
  rw [edgeWith_noReset hr, commandSide, if_neg (by simp [hc]), andThen_of_next]

/-! ## The statements -/

/-- Settles O8: the decoder's check stands before `exec`, and in `exec` the busy lock before the range
check. -/
theorem checksAreTakenInOrder : Obligations.ChecksAreTakenInOrder := by
  unfold Obligations.ChecksAreTakenInOrder
  refine fun w s => ⟨fun hw => ?illegal, fun hw hp hnop hclrerr => ?busy, (field w 8 8).isLt,
    fun hw hp hop hlen => ?range⟩
  case illegal =>
    obtain ⟨e, he⟩ := (decode_eq_error_iff w).mpr hw
    exact acceptWord_error he s
  case busy =>
    obtain ⟨i, hi⟩ := (illegalWord_eq_false_iff w).mp hw
    rw [opField_of_decode hi] at hnop hclrerr
    rw [acceptWord_ok hi, exec_run_busy hp hnop hclrerr]
    rfl
  case range =>
    rw [acceptWord_ok (decode_setlen_of_legal hw hop), exec_setlen, if_neg (by simp [hp]), if_pos hlen]
    rfl

/-- Settles O22: no command acts, and in IDLE the symbol side does nothing. -/
theorem idleEdgeHoldsTheState : Obligations.IdleEdgeHoldsTheState := by
  unfold Obligations.IdleEdgeHoldsTheState
  intro par choice s hp hv hr hc
  rw [edgeWith_of_noCommand hr hc]
  exact symbolSide_idle (s := consumeInput s) _ hp hv

end Sys2Proof.Machine

/-! The statements about the reset and the hazards: the reset edge, a command held over several
edges, and `sym_ready` while nothing is presented. -/

namespace Sys2Proof.Machine

/-! ## A command held over several edges (70_reset_and_hazards.md R264) -/

/-- In RUN a command that was performed changes nothing more (43_commands.md R183). -/
theorem exec_run_again {i : Instr} {s t : State} (hp : s.phase = .run) (h : exec i s = .next t) :
    exec i t = .next t := by
  rw [exec_run hp] at h
  have ht : t.phase = .run := by cases i <;> cases h <;> exact hp
  rw [exec_run ht]
  cases i <;> cases h <;> rfl

/-- Only START leaves IDLE (43_commands.md R184-R190). -/
theorem exec_idle_phase {i : Instr} {s t : State} (hp : s.phase = .idle) (h : exec i s = .next t)
    (hi : ∀ mode, i ≠ .start mode) : t.phase = .idle := by
  rw [exec_idle hp] at h
  cases i with
  | start mode => exact absurd rfl (hi mode)
  | wrmsg index byte => simp only [indexInRange_true, if_true] at h; cases h; exact hp
  | setlen len => dsimp only at h; split at h <;> cases h <;> exact hp
  | nop | setditcw dit | setditqrss dit | clrerr => cases h; exact hp

/-- In IDLE a command that was performed changes nothing more, if it began no RUN. -/
theorem exec_idle_again {i : Instr} {s t : State} (hp : s.phase = .idle) (h : exec i s = .next t)
    (hi : ∀ mode, i ≠ .start mode) : exec i t = .next t := by
  rw [exec_idle (exec_idle_phase hp h hi)]
  rw [exec_idle hp] at h
  cases i with
  | start mode => exact absurd rfl (hi mode)
  | wrmsg index byte =>
    simp only [indexInRange_true, if_true] at h ⊢
    cases h
    rw [Memory.write_write_same]
  | setlen len =>
    dsimp only at h ⊢
    split at h
    case isTrue hr => cases h; exact if_pos hr
    case isFalse hr => cases h; exact if_neg hr
  | nop | setditcw dit | setditqrss dit | clrerr => cases h; rfl

/-- A command other than START is idempotent (70_reset_and_hazards.md R264). -/
theorem exec_again {i : Instr} {s t : State} (h : exec i s = .next t)
    (hi : ∀ mode, i ≠ .start mode) : exec i t = .next t := by
  cases hp : s.phase with
  | run => exact exec_run_again hp h
  | idle => exact exec_idle_again hp h hi

/-- A START that answers leaves the block in RUN, whether it was accepted or rejected BUSY
(43_commands.md R188). -/
theorem exec_start_phase {mode : KeyingMode} {s t : State} (h : exec (.start mode) s = .next t) :
    t.phase = .run := by
  cases hp : s.phase with
  | run => rw [exec_run hp] at h; cases h; exact hp
  | idle => rw [exec_start_next hp h]; rfl

theorem execAll_replicate_of_fixed {i : Instr} {t : State} (h : exec i t = .next t) (n : Nat) :
    execAll (List.replicate n i) t = .next t := by
  induction n with
  | zero => rfl
  | succ n ih => rw [List.replicate_succ, execAll, h, andThen_of_next, ih]

/-- A command that changes nothing more after its second performance. -/
theorem execAll_replicate_of_second {i : Instr} {s t u : State} (h₁ : exec i s = .next t)
    (h₂ : exec i t = .next u) (h : exec i u = .next u) (k : Nat) :
    execAll (List.replicate (k + 2) i) s = .next u := by
  rw [List.replicate_succ, execAll, h₁, andThen_of_next, List.replicate_succ, execAll, h₂,
    andThen_of_next]
  exact execAll_replicate_of_fixed h k

/-! ## The reset edge (70_reset_and_hazards.md R250) -/

theorem step_reset {s : State} (h : (nextInput s).rst = true) :
    step s = .next { State.reset with inputs := s.inputs.tail, draws := s.draws + 1 } := by
  rw [step_eq, edgeWith_reset h]
  rfl

/-! ## `sym_ready` while nothing is presented (70_reset_and_hazards.md R265) -/

/-- The symbol side reads `sym_ready` for a transfer only. -/
theorem symbolSide_ready_irrelevant {pre : State} (hv : pre.valid = false) (par : Config.Params)
    (choice : Choice) (ready ready' : Bool) :
    symbolSide par choice ready pre = symbolSide par choice ready' pre := by
  funext u
  simp [symbolSide, hv]

/-- Two states that agree after the input of the edge is used up, whose inputs agree but for
`sym_ready`, answer the edge alike while nothing is presented. -/
theorem edgeWith_congr_of_not_presented {s s' : State} (hc : consumeInput s = consumeInput s')
    (hin : { nextInput s with symReady := (nextInput s').symReady } = nextInput s')
    (hv : s.valid = false) (par : Config.Params) (choice : Choice) :
    edgeWith par choice s = edgeWith par choice s' := by
  cases hr : (nextInput s).rst with
  | true => rw [edgeWith_reset hr, edgeWith_reset (hin ▸ hr), hc]
  | false =>
    rw [edgeWith_noReset hr, edgeWith_noReset (hin ▸ hr), ← hc, ← hin]
    exact congrArg (andThen _) (symbolSide_ready_irrelevant hv par choice _ _)

/-! ## The statements -/

/-- Settles O19: a command other than START leaves a state it does not change again; after a START the
block is in RUN, where the second one is rejected BUSY and later ones change nothing more. -/
theorem repeatedCommandsAreIdempotent : Obligations.RepeatedCommandsAreIdempotent := by
  unfold Obligations.RepeatedCommandsAreIdempotent
  intro i s t k h
  cases i with
  | start mode =>
    have hbusy := exec_run (exec_start_phase h) (.start mode)
    exact execAll_replicate_of_second h hbusy (exec_run_again (exec_start_phase h) hbusy) k
  | _ =>
    have hagain := exec_again h fun _ => nofun
    exact execAll_replicate_of_second h hagain hagain k

/-- Settles O2: both edges are reset edges, and the outputs are read off the reset state. -/
theorem resetDominatesTheEdge : Obligations.ResetDominatesTheEdge := by
  unfold Obligations.ResetDominatesTheEdge
  exact ⟨fun s h => ⟨_, step_reset h, rfl, fun rst => ⟨rfl, rfl, rfl, rfl, rfl, rfl, rfl⟩,
    fun h' => step_reset h'⟩, fun rst s => rfl⟩

/-- Settles O27: a reset edge reads no other input, without reset only the symbol side reads
`sym_ready`, and the outputs read none of the listed inputs. -/
theorem symReadyHasNoEffectWhileNothingIsPresented :
    Obligations.SymReadyHasNoEffectWhileNothingIsPresented := by
  unfold Obligations.SymReadyHasNoEffectWhileNothingIsPresented
  refine fun s input rest ready => ⟨fun hv par choice => ?_, fun rst => rfl⟩
  apply edgeWith_congr_of_not_presented
  case hc => rfl
  case hin => rfl
  case hv => exact hv

end Sys2Proof.Machine
